-- ==== Sys2Proof/Word.lean ====
section
/-! DEFINITION. The word types of the block (R4: a byte is 8 bits and the only unit of transfer and of storage addressing; R14: a
reading register is 64 bits wide). -/

namespace Sys2Proof

/-- A byte: 8 bits, the only unit of transfer and of storage addressing (00_scope.md section 6). -/
abbrev Byte := BitVec 8

/-- A reading register's content: 64 bits (R14). -/
abbrev Word := BitVec 64

end Sys2Proof
end

