-- ==== Sys2Proof/Config.lean ====
section
/-! DEFINITION. What an implementation of the block fixes (R3): the capacity of the frame buffer and the leading bytes of the two field
signatures. All three are OPEN in the spec (D1, D2), so they are a record that every definition takes from the state it runs on, and
statements range over every such record; the block has no free value (93_implementation_defined.md part 1). -/

namespace Sys2Proof

/-- The open parameters of R3. They are constants of the part, not state: no operation writes them (R10, R31; log 1). -/
structure Config where
  /-- `CAP`, the capacity of the frame buffer in bytes; R3 asks for at least 16. -/
  cap : Nat
  /-- `FSIG1[0..13]`, the first 14 bytes of field signature 1. -/
  fsig1Lead : List Byte
  /-- `FSIG2[0..9]`, the first 10 bytes of field signature 2. -/
  fsig2Lead : List Byte
deriving DecidableEq, Repr

/-- `WPTR_W` of R3: the width of the write cursor, the smallest `w` with `2^w > CAP`. -/
def Config.wptrWidth (c : Config) : Nat := Nat.size c.cap

/-- `TESTCFG` of 95_test_vectors.md section 1, with `CAP` = 64. DESIGN CHOICE (log 2): the spec leaves the parameters open and offers
these values for tests only. -/
def Config.test : Config where
  cap := 64
  fsig1Lead := [0x77, 0x07, 0x01, 0x00, 0x01, 0x08, 0x00, 0xFF, 0x65, 0x00, 0x00, 0x01, 0x82, 0x01]
  fsig2Lead := [0x77, 0x07, 0x01, 0x00, 0x02, 0x08, 0x00, 0xFF, 0x01, 0x01]

end Sys2Proof
end

