-- ==== Sys2Proof/Syntax.lean ====
section
/-! DEFINITION. The operations of the block: one constructor for each row of the operation table (R48, opcode_table.json), in the table's
order. The rows have no operand fields; the free bits of a row's pattern are don't-cares of the selector. -/

namespace Sys2Proof

/-- One operation of the block, the unit a step performs (R4, R48). -/
inductive Instr where
  | reset       -- RESET, R120
  | waitSs      -- WAIT.SS, R66
  | ssMiss      -- SS.MISS, R67
  | ssHit       -- SS.HIT, R68
  | ssOpen      -- SS.OPEN, R69
  | waitSe      -- WAIT.SE, R70
  | ovfDiscard  -- OVF.DISCARD, R83
  | seMiss      -- SE.MISS, R71
  | seHit       -- SE.HIT, R72
  | seClose     -- SE.CLOSE, R73
  | trByte      -- TR.BYTE, R74
  | trLast      -- TR.LAST, R75
  | emit        -- EMIT, R90
  | rsvdSt3     -- RSVD.ST3, R51
deriving DecidableEq, Repr

end Sys2Proof
end

