-- ==== Sys2Proof/WellFormed.lean ====
section
/-! DEFINITION. The checks of the spec on what is given to the model from outside: the parameters of R3 and a selector word of R47. The
operations themselves have no fields, so there is nothing in them to check. -/

namespace Sys2Proof

/-- R3: `CAP >= 16`. -/
def Config.capOk (c : Config) : Bool := decide (16 ≤ c.cap)

/-- R3: `FSIG1[0..13]` is 14 bytes. -/
def Config.fsig1Ok (c : Config) : Bool := decide (c.fsig1Lead.length = 14)

/-- R3: `FSIG2[0..9]` is 10 bytes. -/
def Config.fsig2Ok (c : Config) : Bool := decide (c.fsig2Lead.length = 10)

/-- The constraints of R3 on the open parameters. -/
def Config.wf (c : Config) : Bool := c.capOk && c.fsig1Ok && c.fsig2Ok

/-- A selector has 9 bits (R47). -/
def selWordOk (w : Nat) : Bool := decide (w < 512)

end Sys2Proof
end

