-- ==== Sys2Proof/Decode.lean ====
section
/-! DEFINITION. The operation table of R48: mask and match of every row, the decoder that looks a 9-bit selector up in it, and the
encoder. The decoder is total on selectors (R48) and rejects by name a word that is no selector. -/

namespace Sys2Proof

/-- The rows of the operation table in its order (R48). -/
def allOps : List Instr :=
  [.reset, .waitSs, .ssMiss, .ssHit, .ssOpen, .waitSe, .ovfDiscard] ++
  [.seMiss, .seHit, .seClose, .trByte, .trLast, .emit, .rsvdSt3]

/-- The mask column of R48. -/
def rowMask : Instr → BitVec 9
  | .reset => 0x100
  | .waitSs => 0x1E0
  | .ssMiss => 0x1F0
  | .ssHit => 0x1F8
  | .ssOpen => 0x1F8
  | .waitSe => 0x1E0
  | .ovfDiscard => 0x1E1
  | .seMiss => 0x1F5
  | .seHit => 0x1FD
  | .seClose => 0x1FD
  | .trByte => 0x1E7
  | .trLast => 0x1E7
  | .emit => 0x1C0
  | .rsvdSt3 => 0x1C0

/-- The match column of R48. -/
def rowMatch : Instr → BitVec 9
  | .reset => 0x100
  | .waitSs => 0x000
  | .ssMiss => 0x020
  | .ssHit => 0x030
  | .ssOpen => 0x038
  | .waitSe => 0x040
  | .ovfDiscard => 0x061
  | .seMiss => 0x060
  | .seHit => 0x070
  | .seClose => 0x078
  | .trByte => 0x064
  | .trLast => 0x066
  | .emit => 0x080
  | .rsvdSt3 => 0x0C0

/-- The column "consumes a byte" of R48. -/
def consumes : Instr → Bool
  | .reset => false
  | .waitSs => false
  | .ssMiss => true
  | .ssHit => true
  | .ssOpen => true
  | .waitSe => false
  | .ovfDiscard => true
  | .seMiss => true
  | .seHit => true
  | .seClose => true
  | .trByte => true
  | .trLast => true
  | .emit => false
  | .rsvdSt3 => false

/-- R48: a row matches a selector when `(sel AND mask) = match`. -/
def rowHits (sel : BitVec 9) (i : Instr) : Bool := sel &&& rowMask i == rowMatch i

/-- The operation a selector picks (R48). The rows cover all 512 selectors, so the default (the operation with no successor) is never
what decides (Obligations.OperationTableIsTotalAndDisjoint says so). -/
def decodeSel (sel : BitVec 9) : Instr := (allOps.find? (rowHits sel)).getD .rsvdSt3

/-- A selector of a row: its required bits, with every free bit 0 (R48). -/
def encode (i : Instr) : BitVec 9 := rowMatch i

/-- Why a word is no operation: the one operation format of the block is `SEL9` (R47), so a word of 512 or more is not a selector. -/
inductive DecodeError where
  | notASelector (w : Nat)
deriving DecidableEq, Repr

/-- The decoder on any word, its bit 0 the selector's bit 0 (R47). -/
def decodeWord (w : Nat) : Except DecodeError Instr :=
  if selWordOk w then .ok (decodeSel (BitVec.ofNat 9 w)) else .error (.notASelector w)

/-- The decoder as the host asks for it: the operation of the selector whose bits are `w`. The table's one format has 9 bits, so the
count of bits given decides nothing (log 16). -/
def decodeTableWord (_nbits w : Nat) : Option Instr := (decodeWord w).toOption

end Sys2Proof
end

