-- ==== Sys2Proof/Machine/State.lean ====
section
/-! DEFINITION. The state of the block (R10), the parameters and the environment's side that travel with it (log 1, log 3), the stops of
the model, and the reset state (R121). -/

namespace Sys2Proof.Machine

/-- The scan state (R11). The spec's three values and the reserved code `11` (R51), which no operation writes; it is carried so that the
row RSVD.ST3 has a state in which it is selected (log 4). -/
inductive ScanState where
  | ss        -- SeekingStart, code 00
  | se        -- SeekingEnd, code 01
  | re        -- ReadyToEmit, code 10
  | reserved  -- code 11
deriving DecidableEq, Repr

/-- The frame buffer as a list of cells in canonical form: addresses strictly rising, no cell that holds 00. An address that is not
listed reads 00, the content every byte has after reset and after a clear (R82, R121; log 9). -/
abbrev Memory := List Host.Cell

/-- The machine's state: the tuple of R10, the constants of R3, and what the environment will offer. -/
structure State where
  /-- The parameters of R3, constants of the part (log 1). -/
  cfg : Config
  /-- `st`, the scan state (R11). -/
  st : ScanState
  /-- `sidx`, progress into the start signature, 4 bits (R13). -/
  sidx : BitVec 4
  /-- `eidx`, progress into the end signature, 3 bits (R15). -/
  eidx : BitVec 3
  /-- `tcnt`, trailer bytes taken, 2 bits (R16). -/
  tcnt : BitVec 2
  /-- `wptr`, the write cursor, 0..CAP (R17; log 5). -/
  wptr : Nat
  /-- `buf`, the frame buffer (R18). -/
  buf : Memory
  /-- `q[1]`, the reading register "1.8.0" (R14). -/
  q1 : Word
  /-- `q[2]`, the reading register "2.8.0" (R14). -/
  q2 : Word
  /-- `ovf_count`, the overflow counter, 32 bits (R19). -/
  ovfCount : BitVec 32
  /-- The level of the input `rst` in this step and the following ones; low where the list has ended (R120; log 3). -/
  rstIn : List Bool
  /-- What the Byte Source offers: a byte stays at the head until it is taken, `none` is one step without a byte, and the end of the
  list is a source that offers nothing more (R5, R24; log 3). -/
  src : List (Option Byte)
deriving DecidableEq, Repr

/-- Why the machine stops. All three are safe: nothing can be proved of a next state that is not there. -/
inductive Fault where
  /-- Raised by RSVD.ST3: the scan state holds the reserved code `11` and `rst` is 0, for which R51 gives no successor. Safe. -/
  | reservedState
  /-- Raised by a byte operation that is run while the Byte Source offers no byte. No step does so, since the selector of every byte
  operation has `av` = 1 (R48). Safe. -/
  | noByteOffered
  /-- Raised by an access to a buffer address that R32 says does not exist (CAP or above). No step does so from a state that keeps the
  invariants of R21. Safe. -/
  | bufferAddress
deriving DecidableEq, Repr

/-- Why the model has no meaning for an operation. -/
inductive Refusal where
  /-- Raised by an arm of exec whose operation has no meaning yet. Safe. No arm does. -/
  | notModelled (mnemonic : String)
deriving DecidableEq, Repr

/-- The outcome of an operation or a step. -/
abbrev Result := Host.Outcome State Fault Refusal

/-- The unset sentinel: the 64-bit form of -20000, whose reading is -2 (R27). -/
def unsetReading : Word := 0xFFFFFFFFFFFFB1E0

/-- The reset state of R121 for a part with the parameters `c`, with nothing offered and `rst` low. -/
def State.resetWith (c : Config) : State where
  cfg := c
  st := .ss
  sidx := 0
  eidx := 0
  tcnt := 0
  wptr := 0
  buf := []
  q1 := unsetReading
  q2 := unsetReading
  ovfCount := 0
  rstIn := []
  src := []

/-- The machine right after reset (R121), with the spec's test configuration in the place of the open parameters (log 2). -/
def State.reset : State := State.resetWith Config.test

end Sys2Proof.Machine
end

