-- ==== Sys2Proof/Machine/Operands.lean ====
section
/-! DEFINITION. The operands of the operations: the signature constants (R2, R3), the codes of the scan state (R49), the byte on offer
(R24), reads of the frame buffer (00_scope.md section 6, R34), and the value a reading register stands for (R95, R96). -/

namespace Sys2Proof.Machine

/-- `START`, the start signature (R2). -/
def startSig : List Byte := [0x1B, 0x1B, 0x1B, 0x1B, 0x01, 0x01, 0x01, 0x01]

/-- `END`, the end signature (R2). -/
def endSig : List Byte := [0x1B, 0x1B, 0x1B, 0x1B, 0x1A]

/-- The four bytes both field signatures end in (R2). -/
def fieldTail : List Byte := [0x62, 0x1E, 0x52, 0xFF]

/-- `FSIG1`, the field signature of register "1.8.0" (R2, R3). -/
def fsig1 (c : Config) : List Byte := c.fsig1Lead ++ fieldTail

/-- `FSIG2`, the field signature of register "2.8.0" (R2, R3). -/
def fsig2 (c : Config) : List Byte := c.fsig2Lead ++ fieldTail

/-- The 2-bit code of a scan state (R11, R49). -/
def scanCode : ScanState → BitVec 2
  | .ss => 0b00
  | .se => 0b01
  | .re => 0b10
  | .reserved => 0b11

/-- The scan state of a 2-bit code (R11, R49). -/
def scanOfCode (c : BitVec 2) : ScanState :=
  if c = 0b00 then .ss else if c = 0b01 then .se else if c = 0b10 then .re else .reserved

/-- The byte the Byte Source offers in this step: `some b` is `av` = 1 with `b`, `none` is `av` = 0 (R5, R24). -/
def offered (s : State) : Option Byte :=
  match s.src with
  | some b :: _ => some b
  | _ => none

/-- The level of the input `rst` in this step (R120). -/
def rstNow (s : State) : Bool := s.rstIn.headD false

/-- `buf[a]` (R18): what a cell list holds at an address; an address that is not listed holds 00 (R121). -/
def Memory.read : Memory → Nat → Byte
  | [], _ => 0
  | (a, b) :: m, x => if a = x then b else Memory.read m x

/-- `MemRead(p, 8)` (00_scope.md section 6, R34, R50): eight bytes, the one at the lowest address most significant. -/
def memRead8 (m : Memory) (p : Nat) : Word :=
  m.read p ++ m.read (p + 1) ++ m.read (p + 2) ++ m.read (p + 3) ++
    m.read (p + 4) ++ m.read (p + 5) ++ m.read (p + 6) ++ m.read (p + 7)

/-- `MemRead(p, n)` as the list of its bytes, lowest address first: how an observer reads a stretch of the buffer. -/
def readBytes (m : Memory) (p n : Nat) : List Byte := (List.range n).map (fun i => m.read (p + i))

/-- `signed64(v)`: the 64-bit vector read as a two's-complement integer (R95; log 12). -/
def signed64 (v : Word) : Int := v.toInt

/-- The Register Reading of a register content: `signed64(v) / 10000`, exactly (R96). -/
def readingOf (v : Word) : Rat := (signed64 v : Rat) / 10000

end Sys2Proof.Machine
end

