-- ==== Sys2Proof/Machine/Ops.lean ====
section
/-! DEFINITION. The shared operations on state and memory: the one-byte store, taking the byte on offer, `Clear` (R82), the boundary
check of `Append` (R80), and taking the Overflow event (R83, R106), the block's one exception-like event. It has no return (R113). -/

namespace Sys2Proof.Machine

/-- The canonical form of the frame buffer (log 9): addresses strictly rising, no cell that holds what an unlisted address reads as. -/
def Memory.wf : Memory → Bool
  | [] => true
  | (a, b) :: m => b != 0 && m.all (fun c => decide (a < c.1)) && Memory.wf m

/-- `buf[x] <- v` on the cell list. Writing 00, what an unlisted address reads as, removes the cell. -/
def Memory.write : Memory → Nat → Byte → Memory
  | [], x, v => if v = 0 then [] else [(x, v)]
  | (a, b) :: m, x, v =>
    if x < a then (if v = 0 then (a, b) :: m else (x, v) :: (a, b) :: m)
    else if x = a then (if v = 0 then m else (a, v) :: m)
    else (a, b) :: Memory.write m x v

/-- Carry on with the next state, or keep the stop. -/
def andThen (r : Result) (k : State → Result) : Result :=
  match r with
  | .next s => k s
  | .fault f => .fault f
  | .refused e => .refused e

/-- The next state of an outcome, if it has one. -/
def nextState (r : Result) : Option State :=
  match r with
  | .next s => some s
  | .fault _ => none
  | .refused _ => none

/-- `MemWrite(a, 1, v)` (00_scope.md section 6): one byte, defined only below `CAP` (R32, R36); no address at or above `CAP` exists. -/
def memWrite (s : State) (a : Nat) (v : Byte) : Result :=
  if a < s.cfg.cap then .next { s with buf := s.buf.write a v } else .fault .bufferAddress

/-- The destructive read of the Byte Source (R24, R37): the byte on offer is gone from the source. -/
def dropByte (s : State) : State := { s with src := s.src.tail }

/-- A byte operation: it takes the byte on offer (`take` = 1) and goes on with it (R4, R24). The selector of every byte operation has
`av` = 1, so a step never meets the fault (log 6). -/
def withByte (s : State) (k : Byte → State → Result) : Result :=
  match offered s with
  | some b => k b (dropByte s)
  | none => .fault .noByteOffered

/-- `Clear()` (R82): every byte of the buffer becomes 00, the cursor and the counters become 0, the scan state SS. The readings and the
overflow count are not touched. -/
def clear (s : State) : State :=
  { s with st := .ss, sidx := 0, eidx := 0, tcnt := 0, wptr := 0, buf := [] }

/-- `sat32(n)`: `min(n, 2^32 - 1)` (00_scope.md section 6). -/
def sat32 (n : Nat) : BitVec 32 := BitVec.ofNat 32 (min n (2 ^ 32 - 1))

/-- Taking the Overflow event (`raise Overflow()`; R83, R106, R112): the frame in progress is discarded, scanning restarts, the count
goes up by one and saturates (R19). Nothing is saved and there is no handler. -/
def discardFrame (s : State) : State := { clear s with ovfCount := sat32 (s.ovfCount.toNat + 1) }

/-- `Append(b)` and the rest of the operation that appends (R80): with no room the Overflow event takes the place of the rest, otherwise
the byte is stored at the cursor and the cursor goes up by one. -/
def append (s : State) (b : Byte) (rest : State → Result) : Result :=
  if s.wptr = s.cfg.cap then .next (discardFrame s)
  else andThen (memWrite s s.wptr b) (fun t => rest { t with wptr := t.wptr + 1 })

/-- What RESET leaves (R120, R121): the cleared scanner, both readings unset, no overflow counted. -/
def resetBlock (s : State) : State := { clear s with q1 := unsetReading, q2 := unsetReading, ovfCount := 0 }

end Sys2Proof.Machine
end

