-- ==== Sys2Proof/Machine/Buffer.lean ====
section
/-! DEFINITION. The operation the Frame Buffer controller owns (41_frame_buffer.md, R83). -/

namespace Sys2Proof.Machine

/-- `OVF.DISCARD` (R83): the byte that finds no room is consumed and dropped, and the Overflow event is taken. -/
def execOvfDiscard (s : State) : Result :=
  withByte s fun _ t => .next (discardFrame t)

end Sys2Proof.Machine
end

