-- ==== Sys2Proof/Machine/Control.lean ====
section
/-! DEFINITION. The reset operation (70_reset_and_hazards.md, R120) and the reserved row of the table (30_encoding.md, R51). -/

namespace Sys2Proof.Machine

/-- `RESET` (R120): the reset state of R121; no byte is consumed, and what the environment offers is not touched. -/
def execReset (s : State) : Result := .next (resetBlock s)

/-- `RSVD.ST3` (R51): the reserved scan state has no successor; the machine is stuck. -/
def execRsvdSt3 (_s : State) : Result := .fault .reservedState

end Sys2Proof.Machine
end

