-- ==== Sys2Proof/Machine/Extractor.lean ====
section
/-! DEFINITION. The Register Extractor (42_register_extractor.md): `Match` (R92), `Extract` (R91, R93, R94) and `EMIT` (R90). -/

namespace Sys2Proof.Machine

/-- `Match(S, L, o)` (R92): all bytes of the signature stand in the buffer from address `o` on; no wildcard and no mask. -/
def matchAt (m : Memory) : List Byte → Nat → Bool
  | [], _ => true
  | x :: xs, o => m.read o == x && matchAt m xs (o + 1)

/-- How many offsets are tried for a signature of length `sigLen` in a frame of length `len` (R93): `o` = 0 .. `len - sigLen - 8`, none
if that bound is negative (R100 c). -/
def offsetCount (sigLen len : Nat) : Nat := len + 1 - (sigLen + 8)

/-- One loop of `Extract` (R91): every offset in ascending order, no early end, so that the last match wins (R97); with no match the old
value stays (R98). The value is the 8 bytes right after the signature (R94). -/
def scanField (m : Memory) (sig : List Byte) (len : Nat) (old : Word) : Word :=
  (List.range (offsetCount sig.length len)).foldl
    (fun r o => if matchAt m sig o then memRead8 m (o + sig.length) else r) old

/-- `Extract(buf, len, a1, a2)` (R91): signature 1 first, then signature 2, each feeding its own register (R102). -/
def extract (c : Config) (m : Memory) (len : Nat) (a1 a2 : Word) : Word × Word :=
  (scanField m (fsig1 c) len a1, scanField m (fsig2 c) len a2)

/-- `EMIT` (R90): both readings are updated from the completed frame and the buffer is cleared, in one step; no byte is consumed. The
frame is `buf[0..wptr-1]`, so it exists only for a cursor within the buffer (R17, R32; log 7). -/
def execEmit (s : State) : Result :=
  if s.wptr ≤ s.cfg.cap then
    .next (clear { s with
      q1 := (extract s.cfg s.buf s.wptr s.q1 s.q2).1
      q2 := (extract s.cfg s.buf s.wptr s.q1 s.q2).2 })
  else .fault .bufferAddress

end Sys2Proof.Machine
end

