-- ==== Sys2Proof/Machine/Scanner.lean ====
section
/-! DEFINITION. The operations of the Frame Scanner (40_frame_scanner.md, R65 to R75). A mismatching byte is not tried again as a first
byte (R65). -/

namespace Sys2Proof.Machine

/-- `WAIT.SS` (R66): nothing changes and no byte is consumed. -/
def execWaitSs (s : State) : Result := .next s

/-- `SS.MISS` (R67): the byte is dropped and the start counter goes to 0; the buffer keeps the abandoned prefix. -/
def execSsMiss (s : State) : Result :=
  withByte s fun _ t => .next { t with sidx := 0 }

/-- `SS.HIT` (R68): the byte is stored at the start index, which goes up by one. -/
def execSsHit (s : State) : Result :=
  withByte s fun b t => andThen (memWrite t t.sidx.toNat b) fun u => .next { u with sidx := u.sidx + 1 }

/-- `SS.OPEN` (R69): the last byte of the start signature is stored at address 7 and the frame opens. -/
def execSsOpen (s : State) : Result :=
  withByte s fun b t => andThen (memWrite t 7 b) fun u => .next { u with sidx := 8, wptr := 8, st := .se }

/-- `WAIT.SE` (R70): nothing changes and no byte is consumed. -/
def execWaitSe (s : State) : Result := .next s

/-- `SE.MISS` (R71): the byte is appended and the end counter goes to 0. -/
def execSeMiss (s : State) : Result :=
  withByte s fun b t => append t b fun u => .next { u with eidx := 0 }

/-- `SE.HIT` (R72): the byte is appended and the end counter goes up by one. -/
def execSeHit (s : State) : Result :=
  withByte s fun b t => append t b fun u => .next { u with eidx := u.eidx + 1 }

/-- `SE.CLOSE` (R73): the byte is appended and the end counter becomes 5, which begins the trailer phase. -/
def execSeClose (s : State) : Result :=
  withByte s fun b t => append t b fun u => .next { u with eidx := 5 }

/-- `TR.BYTE` (R74): the trailer byte is appended, unchecked, and counted. -/
def execTrByte (s : State) : Result :=
  withByte s fun b t => append t b fun u => .next { u with tcnt := u.tcnt + 1 }

/-- `TR.LAST` (R75): the third trailer byte is appended and the frame is complete. -/
def execTrLast (s : State) : Result :=
  withByte s fun b t => append t b fun u => .next { u with tcnt := 3, st := .re }

end Sys2Proof.Machine
end

