-- ==== Sys2Proof/Machine/Dispatch.lean ====
section
/-! DEFINITION. One arm for each operation of the table (R48), in the table's order. -/

namespace Sys2Proof.Machine

def exec (i : Instr) (s : State) : Host.Outcome State Fault Refusal :=
  match i with
  | .reset => Sys2Proof.Machine.execReset s
  | .waitSs => Sys2Proof.Machine.execWaitSs s
  | .ssMiss => Sys2Proof.Machine.execSsMiss s
  | .ssHit => Sys2Proof.Machine.execSsHit s
  | .ssOpen => Sys2Proof.Machine.execSsOpen s
  | .waitSe => Sys2Proof.Machine.execWaitSe s
  | .ovfDiscard => Sys2Proof.Machine.execOvfDiscard s
  | .seMiss => Sys2Proof.Machine.execSeMiss s
  | .seHit => Sys2Proof.Machine.execSeHit s
  | .seClose => Sys2Proof.Machine.execSeClose s
  | .trByte => Sys2Proof.Machine.execTrByte s
  | .trLast => Sys2Proof.Machine.execTrLast s
  | .emit => Sys2Proof.Machine.execEmit s
  | .rsvdSt3 => Sys2Proof.Machine.execRsvdSt3 s

end Sys2Proof.Machine
end

