-- ==== Sys2Proof/Machine/Flags.lean ====
section
/-! DEFINITION. Every condition bit and flag of the spec: the five condition bits of the selector (R47), the selector itself, the
operation it picks (R48), and the derived flags and the read strobe (R20, R24). -/

namespace Sys2Proof.Machine

/-- `av`: the Byte Source offers a byte in this step (R24, R47). -/
def av (s : State) : Bool := (offered s).isSome

/-- `hit` (R47): the byte on offer equals the next expected byte of the signature being looked for. `START[sidx]` is read only for
`sidx` up to 7 and `END[eidx]` only for `eidx` up to 4; past them nothing is compared and the bit is 0. -/
def hit (s : State) : Bool :=
  match offered s with
  | none => false
  | some b =>
    match s.st with
    | .ss => startSig[s.sidx.toNat]? == some b
    | .se => endSig[s.eidx.toNat]? == some b
    | .re => false
    | .reserved => false

/-- `last` (R47): the counter is one short of the full signature length. -/
def last (s : State) : Bool :=
  match s.st with
  | .ss => s.sidx == 7
  | .se => s.eidx == 4
  | .re => false
  | .reserved => false

/-- `trl` (R47): the trailer phase, `st` = SE with `eidx` = 5 (R15). -/
def trl (s : State) : Bool := s.st == .se && s.eidx == 5

/-- `tlast` (R47): the trailer phase with two trailer bytes taken. -/
def tlast (s : State) : Bool := s.st == .se && s.eidx == 5 && s.tcnt == 2

/-- `full` (R47): the buffer has no room, `wptr` = `CAP`. -/
def full (s : State) : Bool := s.wptr == s.cfg.cap

/-- The selector `sel[8:0]` of R47, bit 8 first. -/
def selector (s : State) : BitVec 9 :=
  BitVec.ofBool (rstNow s) ++ scanCode s.st ++ BitVec.ofBool (av s) ++ BitVec.ofBool (hit s) ++
    BitVec.ofBool (last s) ++ BitVec.ofBool (trl s) ++ BitVec.ofBool (tlast s) ++ BitVec.ofBool (full s)

/-- The operation performed in this step (R48): what the table gives for the selector. -/
def selected (s : State) : Instr := decodeSel (selector s)

/-- `in_ready` (R20): the block takes a byte in this step if one is offered, `st` not RE. -/
def inReady (s : State) : Bool := s.st != .re

/-- `frame_ready` (R20): `buf[0..wptr-1]` is a completed frame, `st` = RE. -/
def frameReady (s : State) : Bool := s.st == .re

/-- `ovf_event` (R20): 1 exactly in a step that performs OVF.DISCARD. -/
def ovfEvent (s : State) : Bool := selected s == .ovfDiscard

/-- `take` (R24): 1 exactly in the steps whose operation consumes a byte. -/
def take (s : State) : Bool := consumes (selected s)

end Sys2Proof.Machine
end

