-- ==== Sys2Proof/Machine/Inputs.lean ====
section
/-! DEFINITION. The environment's side of a step: what the passing of one step does to the inputs (R5; log 3), and how a selector is set
up so that the next step performs its operation (log 8). -/

namespace Sys2Proof.Machine

/-- One step has passed between the state `before` and the state `after` the operation: the next level of `rst` comes up, and a step in
which no byte was offered is over. A byte on offer that was not taken stays on offer (R5). -/
def elapse (before after : State) : State :=
  { after with
    rstIn := after.rstIn.tail
    src := if before.src.head? = some none then after.src.tail else after.src }

/-- `START[i]` as a byte; 00 past its end. -/
def startAt (i : Nat) : Byte := startSig.getD i 0

/-- `END[i]` as a byte; 00 past its end. -/
def endAt (i : Nat) : Byte := endSig.getD i 0

/-- A byte that compares as `hit` says with the expected byte `e` (R47): the byte itself, or its complement. -/
def byteFor (hit : Bool) (e : Byte) : Byte := if hit then e else ~~~e

/-- The counters and the byte on offer that give the condition bits of a selector in SeekingStart. -/
def placeSs (s : State) (sel : BitVec 9) : State × Byte :=
  let sidx := if sel.getLsbD 3 then 7 else if s.sidx.toNat < 7 then s.sidx else 0
  ({ s with sidx := sidx }, byteFor (sel.getLsbD 4) (startAt sidx.toNat))

/-- The counters and the byte on offer that give the condition bits of a selector in SeekingEnd. -/
def placeSe (s : State) (sel : BitVec 9) : State × Byte :=
  if sel.getLsbD 2 then
    ({ s with eidx := 5, tcnt := if sel.getLsbD 1 then 2 else if s.tcnt = 2 then 0 else s.tcnt }, 0)
  else
    let eidx := if sel.getLsbD 3 then 4 else if s.eidx.toNat < 4 then s.eidx else 0
    ({ s with eidx := eidx }, byteFor (sel.getLsbD 4) (endAt eidx.toNat))

/-- The state `s` with the inputs, the scan state, the counters and the cursor set so that R47 forms from it a selector of the same
row as `sel`. Condition bits that no state can show together (R55) follow the row: they are free bits there. -/
def placeSelector (s : State) (sel : BitVec 9) : State :=
  let st := scanOfCode (sel.extractLsb' 6 2)
  let t : State := { s with
    st := st
    wptr := if sel.getLsbD 0 then s.cfg.cap else if s.wptr = s.cfg.cap then 0 else s.wptr
    rstIn := sel.getLsbD 8 :: s.rstIn.tail }
  let p : State × Byte :=
    match st with
    | .ss => placeSs t sel
    | .se => placeSe t sel
    | .re => (t, 0)
    | .reserved => (t, 0)
  { p.1 with src := (if sel.getLsbD 5 then some p.2 else none) :: s.src.tail }

end Sys2Proof.Machine
end

