-- ==== Sys2Proof/Machine/Step.lean ====
section
/-! DEFINITION. One step (R4): the operation the selector picks is performed on the state before the step, and the step passes. -/

namespace Sys2Proof.Machine

/-- One step of the block (R4, R48). -/
def step (s : State) : Host.Outcome State Fault Refusal :=
  andThen (exec (selected s) s) fun t => .next (elapse s t)

/-- The block has no fetch (R12, R41): its operation is chosen by its state and inputs. `s` with those set so that the very next step
performs the operation of the selector `w` (log 8). -/
def State.withFetchWord (s : State) (_nbits w : Nat) : State := placeSelector s (BitVec.ofNat 9 w)

end Sys2Proof.Machine
end

