-- ==== Sys2Proof/Machine/Ports.lean ====
section
/-! DEFINITION. What the outside sees: the output ports (R24, R25), the frame read port (R26), the readings (R96), and the labels of the
events a step makes visible (R105, R117). None of them adds state or changes it (R37). -/

namespace Sys2Proof.Machine

/-- The output ports of R24 and R25. All but `take` and `ovfEvent` show the state at the start of the step. -/
structure Outputs where
  take : Bool
  st : BitVec 2
  sidx : BitVec 4
  eidx : BitVec 3
  tcnt : BitVec 2
  frameLen : Nat
  inReady : Bool
  frameReady : Bool
  ovfEvent : Bool
  ovfCount : BitVec 32
  q1 : Word
  q2 : Word
deriving DecidableEq, Repr

/-- The outputs of the step that begins in `s` (R25). -/
def outputs (s : State) : Outputs where
  take := take s
  st := scanCode s.st
  sidx := s.sidx
  eidx := s.eidx
  tcnt := s.tcnt
  frameLen := s.wptr
  inReady := inReady s
  frameReady := frameReady s
  ovfEvent := ovfEvent s
  ovfCount := s.ovfCount
  q1 := s.q1
  q2 := s.q2

/-- The frame read port (R26): `fb_data` for the address on `fb_addr`. -/
def frameByte (s : State) (a : Nat) : Byte := if a < s.wptr then s.buf.read a else 0

/-- The bytes collected so far, `buf[0..wptr-1]`; in RE the completed frame (R38, R85). -/
def frameBytes (s : State) : List Byte := readBytes s.buf 0 s.wptr

/-- `Rd(1)` (R96). -/
def reading1 (s : State) : Rat := readingOf s.q1

/-- `Rd(2)` (R96). -/
def reading2 (s : State) : Rat := readingOf s.q2

/-- What a step makes visible (R117). -/
inductive Event where
  | frameOpened
  | frameClosed (len : Nat)
  | frameEmitted (q1 q2 : Word)
  | overflow
  | reset
deriving DecidableEq, Repr

/-- The label of a step that performs an operation and ends in the state `after` (R117). -/
def label (i : Instr) (after : State) : Option Event :=
  match i with
  | .reset => some .reset
  | .waitSs => none
  | .ssMiss => none
  | .ssHit => none
  | .ssOpen => some .frameOpened
  | .waitSe => none
  | .ovfDiscard => some .overflow
  | .seMiss => none
  | .seHit => none
  | .seClose => none
  | .trByte => none
  | .trLast => some (.frameClosed after.wptr)
  | .emit => some (.frameEmitted after.q1 after.q2)
  | .rsvdSt3 => none

/-- `EV_OVERFLOW` = 1, the one event code of the spec; a label that appears on no port (R105). -/
def evOverflow : Nat := 1

/-- The code of an event: only the Overflow event has one (R105). -/
def eventCode (e : Event) : Option Nat :=
  match e with
  | .frameOpened => none
  | .frameClosed _ => none
  | .frameEmitted _ _ => none
  | .overflow => some evOverflow
  | .reset => none

end Sys2Proof.Machine
end

