-- ==== Sys2Proof/Machine/Stimulus.lean ====
section
/-! DEFINITION. Feeding the block: the wire formats as byte lists (R45, R46), the stimulus notation of R54, and `Run` and `RunHold` of
R127. Each function sets the inputs and takes steps; none has a behaviour of its own. -/

namespace Sys2Proof.Machine

/-- `I64(n)` (R54): the 8 bytes of a 64-bit value, most significant first. -/
def i64 (v : Word) : List Byte :=
  [v.extractLsb' 56 8, v.extractLsb' 48 8, v.extractLsb' 40 8, v.extractLsb' 32 8] ++
  [v.extractLsb' 24 8, v.extractLsb' 16 8, v.extractLsb' 8 8, v.extractLsb' 0 8]

/-- `F1(n)` (R46, R54): field signature 1 and a value. -/
def field1 (c : Config) (v : Word) : List Byte := fsig1 c ++ i64 v

/-- `F2(n)` (R46, R54): field signature 2 and a value. -/
def field2 (c : Config) (v : Word) : List Byte := fsig2 c ++ i64 v

/-- `FRAME(P; x y z)` (R45, R54): a frame on the wire. -/
def frame (payload : List Byte) (x y z : Byte) : List Byte := startSig ++ payload ++ endSig ++ [x, y, z]

/-- The inputs of a step in which the byte `b` is offered and `rst` is low. -/
def offerByte (s : State) (b : Byte) : State := { s with rstIn := [], src := [some b] }

/-- The inputs of a step in which no byte is offered and `rst` is low. -/
def offerNone (s : State) : State := { s with rstIn := [], src := [] }

/-- The inputs of a step in which `rst` is high (and no byte is offered, which RESET does not look at; R120). -/
def raiseReset (s : State) : State := { s with rstIn := [true], src := [] }

/-- A stimulus token of R54: a byte `XX`, an idle step `..`, a reset step `RST`. -/
inductive Token where
  | byte (b : Byte)
  | idle
  | rst
deriving DecidableEq, Repr

/-- What one token does to a state (R54): a byte is on offer until it is taken, which needs an EMIT step first exactly in RE. -/
def applyToken (k : Token) (s : State) : Result :=
  match k with
  | .byte b => if s.st = .re then andThen (step (offerByte s b)) step else step (offerByte s b)
  | .idle => step (offerNone s)
  | .rst => step (raiseReset s)

/-- The operations one token performs, in order (R54). -/
def tokenOps (k : Token) (s : State) : List Instr :=
  match k with
  | .byte b =>
    if s.st = .re then
      selected (offerByte s b) :: ((nextState (step (offerByte s b))).map selected).toList
    else [selected (offerByte s b)]
  | .idle => [selected (offerNone s)]
  | .rst => [selected (raiseReset s)]

/-- A stimulus: tokens applied left to right (R54). -/
def applyStimulus : List Token → State → Result
  | [], s => .next s
  | k :: ks, s => andThen (applyToken k s) (applyStimulus ks)

/-- The trace of a stimulus (R54). -/
def trace : List Token → State → List Instr
  | [], _ => []
  | k :: ks, s =>
    tokenOps k s ++
      match applyToken k s with
      | .next t => trace ks t
      | .fault _ => []
      | .refused _ => []

/-- `ByteStep(s, b)` (R127): the one operation selected with `rst` = 0 and the byte `b` on offer. -/
def byteStep (s : State) (b : Byte) : Result := step (offerByte s b)

/-- `EmitStep(s)` (R127): the operation of a state in RE, with `rst` = 0. -/
def emitStep (s : State) : Result := step (offerNone s)

/-- `RunHold(s, bytes)` (R127): the state reached when exactly these bytes are delivered, without a last EMIT. -/
def runHold : State → List Byte → Result
  | s, [] => .next s
  | s, b :: t =>
    if s.st = .re then andThen (emitStep s) (fun e => andThen (byteStep e b) (fun u => runHold u t))
    else andThen (byteStep s b) (fun u => runHold u t)

/-- `Run(s, bytes)` (R127): the same, and a frame that is complete at the end is emitted. -/
def run (s : State) (bytes : List Byte) : Result :=
  andThen (runHold s bytes) (fun u => if u.st = .re then emitStep u else .next u)

end Sys2Proof.Machine
end

