-- ==== Sys2Proof/Safety.lean ====
section
/-! DEFINITION. What a sound state and a safe run are, in the terms the statements use: the invariants of R21 and the canonical form of
the frame buffer. -/

namespace Sys2Proof.Machine

/-- The buffer list is sound for a part of capacity `cap`: canonical (log 9), and no cell at an address that does not exist (R32). -/
def Memory.ok (m : Memory) (cap : Nat) : Prop := Memory.wf m = true ∧ ∀ c ∈ m, c.1 < cap

/-- V2 of R21. -/
structure SsInv (s : State) : Prop where
  sidx : s.sidx.toNat ≤ 7
  eidx : s.eidx = 0
  tcnt : s.tcnt = 0
  wptr : s.wptr = 0
  prefix_stored : ∀ i, i < s.sidx.toNat → some (s.buf.read i) = startSig[i]?

/-- V3, V4 and V5 of R21. -/
structure SeInv (s : State) : Prop where
  sidx : s.sidx = 8
  eidx : s.eidx.toNat ≤ 5
  tcnt : s.tcnt.toNat ≤ 2
  trailer : s.tcnt ≠ 0 → s.eidx = 5
  cursor_low : 8 + s.eidx.toNat + s.tcnt.toNat ≤ s.wptr
  cursor_high : s.wptr ≤ s.cfg.cap
  start_stored : readBytes s.buf 0 8 = startSig
  end_progress : s.eidx.toNat < 5 → readBytes s.buf (s.wptr - s.eidx.toNat) s.eidx.toNat = endSig.take s.eidx.toNat
  end_stored : s.eidx = 5 → readBytes s.buf (s.wptr - s.tcnt.toNat - 5) 5 = endSig

/-- V6 of R21. -/
structure ReInv (s : State) : Prop where
  sidx : s.sidx = 8
  eidx : s.eidx = 5
  tcnt : s.tcnt = 3
  cursor_low : 16 ≤ s.wptr
  cursor_high : s.wptr ≤ s.cfg.cap
  start_stored : readBytes s.buf 0 8 = startSig
  end_stored : readBytes s.buf (s.wptr - 8) 5 = endSig

/-- The invariants V1 to V6 and the bound of V7 (R21), with the parameters within R3, the buffer list sound, and every buffer byte past
both the cursor and the start signature's eight places 00 (the last row of R38). -/
structure BlockInv (s : State) : Prop where
  cfg_ok : s.cfg.wf = true
  buf_ok : s.buf.ok s.cfg.cap
  st_legal : s.st ≠ .reserved
  ss : s.st = .ss → SsInv s
  se : s.st = .se → SeInv s
  re : s.st = .re → ReInv s
  cursor : s.wptr ≤ s.cfg.cap
  clear_above : ∀ a, 8 ≤ a → s.wptr ≤ a → s.buf.read a = 0

/-- A step that ends in a next state: neither stuck nor stopped by the model. -/
def Steps (s : State) : Prop := ∃ t, step s = .next t

end Sys2Proof.Machine
end

