-- ==== Sys2Proof/Certificates/Slice0/Obligations.lean ====
section
/-! DEFINITION. The statements for the provers. `offered s = some b` is "the Byte Source offers `b`" (`av` = 1), `rstNow s` the level of
`rst` in the step; every statement ranges over all parameters `s.cfg` (R3). -/

open Sys2Proof Sys2Proof.Machine

/-! ### Outputs in a step, shared by the statements of the operations -/

/-- The flags of a step that scans: `in_ready` = 1, `frame_ready` = 0, `ovf_event` = 0, and `take` as given (R20, R24). -/
def Sys2Proof.Machine.ScanFlags (s : State) (takes : Bool) : Prop :=
  inReady s = true ∧ frameReady s = false ∧ ovfEvent s = false ∧ take s = takes

/-- A step with `rst` low in a scan state (the premise every row but RESET has; R48). -/
def Sys2Proof.Machine.Running (s : State) (st : ScanState) : Prop := rstNow s = false ∧ s.st = st

/-! ### The operations of the Frame Scanner (40_frame_scanner.md) -/

/-- R66. -/
def Obligations.WaitSsChangesNothing : Prop :=
  ∀ s : State, Running s .ss → offered s = none →
    selected s = .waitSs ∧ exec .waitSs s = .next s ∧ ScanFlags s false ∧ label .waitSs s = none

/-- R67. -/
def Obligations.SsMissDropsByteAndRestarts : Prop :=
  ∀ (s : State) (b : Byte), Running s .ss → offered s = some b → startSig[s.sidx.toNat]? ≠ some b →
    selected s = .ssMiss ∧ exec .ssMiss s = .next { s with src := s.src.tail, sidx := 0 } ∧
    ScanFlags s true ∧ ∀ t, label .ssMiss t = none

/-- R68. The last clause is the rule's corner case: a stored prefix of `START` grows by one byte. -/
def Obligations.SsHitStoresAtStartIndex : Prop :=
  ∀ (s : State) (b : Byte), s.cfg.wf = true → Running s .ss → offered s = some b →
    startSig[s.sidx.toNat]? = some b → s.sidx ≠ 7 →
    s.sidx.toNat ≤ 6 ∧ selected s = .ssHit ∧
    (∃ t, exec .ssHit s = .next t ∧
      t = { s with src := s.src.tail, buf := s.buf.write s.sidx.toNat b, sidx := s.sidx + 1 } ∧
      t.sidx.toNat = s.sidx.toNat + 1 ∧
      (s.buf.wf = true → readBytes s.buf 0 s.sidx.toNat = startSig.take s.sidx.toNat →
        readBytes t.buf 0 t.sidx.toNat = startSig.take t.sidx.toNat)) ∧
    ScanFlags s true ∧ ∀ t, label .ssHit t = none

/-- R69. The clause on `readBytes` is the rule's corner case: after the step the buffer begins with `START`. -/
def Obligations.SsOpenOpensFrame : Prop :=
  ∀ (s : State) (b : Byte), s.cfg.wf = true → Running s .ss → offered s = some b → s.sidx = 7 → b = 0x01 →
    selected s = .ssOpen ∧
    (∃ t, exec .ssOpen s = .next t ∧
      t = { s with src := s.src.tail, buf := s.buf.write 7 b, sidx := 8, wptr := 8, st := .se } ∧
      (s.buf.wf = true → readBytes s.buf 0 7 = startSig.take 7 → readBytes t.buf 0 8 = startSig)) ∧
    ScanFlags s true ∧ ∀ t, label .ssOpen t = some .frameOpened

/-- R70: in the trailer phase or outside it, the buffer full or not. -/
def Obligations.WaitSeChangesNothing : Prop :=
  ∀ s : State, Running s .se → offered s = none →
    selected s = .waitSe ∧ exec .waitSe s = .next s ∧ ScanFlags s false ∧ label .waitSe s = none

/-- R71. -/
def Obligations.SeMissAppendsAndRestartsEnd : Prop :=
  ∀ (s : State) (b : Byte), Running s .se → offered s = some b → s.wptr < s.cfg.cap →
    s.eidx.toNat < 5 → endSig[s.eidx.toNat]? ≠ some b →
    selected s = .seMiss ∧
    exec .seMiss s = .next { s with
      src := s.src.tail, buf := s.buf.write s.wptr b, wptr := s.wptr + 1, eidx := 0 } ∧
    ScanFlags s true ∧ ∀ t, label .seMiss t = none

/-- R72. -/
def Obligations.SeHitAppendsAndCounts : Prop :=
  ∀ (s : State) (b : Byte), Running s .se → offered s = some b → s.wptr < s.cfg.cap →
    s.eidx.toNat < 4 → endSig[s.eidx.toNat]? = some b →
    b = 0x1B ∧ selected s = .seHit ∧
    (∃ t, exec .seHit s = .next t ∧
      t = { s with src := s.src.tail, buf := s.buf.write s.wptr b, wptr := s.wptr + 1, eidx := s.eidx + 1 } ∧
      t.eidx.toNat = s.eidx.toNat + 1) ∧
    ScanFlags s true ∧ ∀ t, label .seHit t = none

/-- R73. The last clause is the rule's corner case: if this byte fills the buffer, the next byte offered is the overflow. -/
def Obligations.SeCloseBeginsTrailer : Prop :=
  ∀ (s : State) (b : Byte), Running s .se → offered s = some b → s.wptr < s.cfg.cap →
    s.eidx = 4 → b = 0x1A →
    selected s = .seClose ∧
    (∃ t, exec .seClose s = .next t ∧
      t = { s with src := s.src.tail, buf := s.buf.write s.wptr b, wptr := s.wptr + 1, eidx := 5 } ∧
      trl t = true ∧
      (t.wptr = t.cfg.cap → ∀ c, selected (offerByte t c) = .ovfDiscard)) ∧
    ScanFlags s true ∧ ∀ t, label .seClose t = none

/-- R74: whatever the byte is. -/
def Obligations.TrByteAppendsUnchecked : Prop :=
  ∀ (s : State) (b : Byte), Running s .se → offered s = some b → s.wptr < s.cfg.cap →
    s.eidx = 5 → s.tcnt.toNat ≤ 1 →
    selected s = .trByte ∧
    (∃ t, exec .trByte s = .next t ∧
      t = { s with src := s.src.tail, buf := s.buf.write s.wptr b, wptr := s.wptr + 1, tcnt := s.tcnt + 1 } ∧
      t.tcnt.toNat = s.tcnt.toNat + 1) ∧
    ScanFlags s true ∧ ∀ t, label .trByte t = none

/-- R75: a frame of exactly `CAP` bytes completes too, since only `wptr` < `CAP` before the step is asked for. -/
def Obligations.TrLastCompletesFrame : Prop :=
  ∀ (s : State) (b : Byte), Running s .se → offered s = some b → s.wptr < s.cfg.cap →
    s.eidx = 5 → s.tcnt = 2 →
    selected s = .trLast ∧
    (∃ t, exec .trLast s = .next t ∧
      t = { s with src := s.src.tail, buf := s.buf.write s.wptr b, wptr := s.wptr + 1, tcnt := 3, st := .re } ∧
      inReady t = false ∧ frameReady t = true) ∧
    ScanFlags s true ∧ ∀ t, label .trLast t = some (.frameClosed t.wptr)

/-! ### The Frame Buffer controller, the extractor's operation, reset and the reserved row -/

/-- R83. The clause with `resetWith` is the rule's corner case (d), the last line its corner case (e). -/
def Obligations.OvfDiscardDropsFrameAndCounts : Prop :=
  (∀ (s : State) (b : Byte), Running s .se → offered s = some b → s.wptr = s.cfg.cap →
    selected s = .ovfDiscard ∧
    (∃ t, exec .ovfDiscard s = .next t ∧
      t = { State.resetWith s.cfg with
        q1 := s.q1, q2 := s.q2, ovfCount := t.ovfCount, rstIn := s.rstIn, src := s.src.tail } ∧
      t.ovfCount.toNat = min (s.ovfCount.toNat + 1) (2 ^ 32 - 1)) ∧
    inReady s = true ∧ frameReady s = false ∧ ovfEvent s = true ∧ take s = true ∧
    ∀ t, label .ovfDiscard t = some .overflow) ∧
  (∀ s : State, selected s = .ovfDiscard → rstNow s = false ∧ s.st = .se)

/-- R90, with its corner cases: (a) a frame without a signature keeps that reading, (b) a frame too short for a signature and a value
changes no reading, (c) the step right after TR.LAST is the EMIT of that frame unless it is a RESET. -/
def Obligations.EmitExtractsAndClears : Prop :=
  (∀ s : State, s.cfg.wf = true → Running s .re → s.wptr ≤ s.cfg.cap →
    selected s = .emit ∧
    (∃ t, exec .emit s = .next t ∧
      t = { State.resetWith s.cfg with
        q1 := (extract s.cfg s.buf s.wptr s.q1 s.q2).1
        q2 := (extract s.cfg s.buf s.wptr s.q1 s.q2).2
        ovfCount := s.ovfCount, rstIn := s.rstIn, src := s.src } ∧
      inReady t = true ∧ frameReady t = false ∧
      ((∀ o, o + 26 ≤ s.wptr → matchAt s.buf (fsig1 s.cfg) o = false) → t.q1 = s.q1) ∧
      ((∀ o, o + 22 ≤ s.wptr → matchAt s.buf (fsig2 s.cfg) o = false) → t.q2 = s.q2) ∧
      (s.wptr < 22 → t.q1 = s.q1 ∧ t.q2 = s.q2)) ∧
    inReady s = false ∧ frameReady s = true ∧ ovfEvent s = false ∧ take s = false) ∧
  (∀ s t : State, selected s = .trLast → step s = .next t → selected t = if rstNow t then .reset else .emit)

/-- R120: whatever the state and whatever is offered, also in the reserved scan state. -/
def Obligations.ResetLeavesResetState : Prop :=
  ∀ s : State,
    exec .reset s = .next { State.resetWith s.cfg with rstIn := s.rstIn, src := s.src } ∧
    (rstNow s = true → selected s = .reset ∧ take s = false ∧ ovfEvent s = false)

/-- R121, component by component, for every part. -/
def Obligations.ResetStateValues : Prop :=
  ∀ c : Config, ∃ s, s = State.resetWith c ∧ s.cfg = c ∧
    s.st = .ss ∧ scanCode s.st = 0b00 ∧ s.sidx = 0 ∧ s.eidx = 0 ∧ s.tcnt = 0 ∧ s.wptr = 0 ∧
    (∀ a, s.buf.read a = 0x00) ∧
    s.q1 = 0xFFFFFFFFFFFFB1E0 ∧ s.q2 = 0xFFFFFFFFFFFFB1E0 ∧
    signed64 s.q1 = -20000 ∧ signed64 s.q2 = -20000 ∧ reading1 s = -2 ∧ reading2 s = -2 ∧
    s.ovfCount = 0 ∧ inReady s = true ∧ frameReady s = false ∧ ovfEvent s = false

/-- R51: the reserved code has no successor with `rst` low, RESET leaves it, and no operation writes it. -/
def Obligations.ReservedStateIsStuck : Prop :=
  (∀ s : State, exec .rsvdSt3 s = .fault .reservedState) ∧
  (∀ s : State, Running s .reserved → selected s = .rsvdSt3 ∧ step s = .fault .reservedState) ∧
  (∀ s : State, rstNow s = true → s.st = .reserved → selected s = .reset ∧ ∃ t, step s = .next t ∧ t.st = .ss) ∧
  (∀ (i : Instr) (s t : State), exec i s = .next t → t.st = .reserved → s.st = .reserved) ∧
  (∀ c : Config, (State.resetWith c).st = .ss)

/-! ### Selection, decoding, stepping -/

/-- R47, bit by bit. -/
def Obligations.SelectorBits : Prop :=
  ∀ s : State,
    ((selector s).getLsbD 8 = true ↔ rstNow s = true) ∧
    (selector s).extractLsb' 6 2 = scanCode s.st ∧
    ((selector s).getLsbD 5 = true ↔ ∃ b, offered s = some b) ∧
    ((selector s).getLsbD 4 = true ↔ ∃ b, offered s = some b ∧
      ((s.st = .ss ∧ s.sidx.toNat ≤ 7 ∧ startSig[s.sidx.toNat]? = some b) ∨
       (s.st = .se ∧ s.eidx.toNat < 5 ∧ endSig[s.eidx.toNat]? = some b))) ∧
    ((selector s).getLsbD 3 = true ↔ (s.st = .ss ∧ s.sidx = 7) ∨ (s.st = .se ∧ s.eidx = 4)) ∧
    ((selector s).getLsbD 2 = true ↔ s.st = .se ∧ s.eidx = 5) ∧
    ((selector s).getLsbD 1 = true ↔ s.st = .se ∧ s.eidx = 5 ∧ s.tcnt = 2) ∧
    ((selector s).getLsbD 0 = true ↔ s.wptr = s.cfg.cap)

/-- R48: every selector matches exactly one row, the decoder gives that row, and a step performs that row's operation and takes a byte
when the row says so. -/
def Obligations.OperationTableIsTotalAndDisjoint : Prop :=
  (∀ (sel : BitVec 9) (i : Instr), decodeSel sel = i ↔ sel &&& rowMask i = rowMatch i) ∧
  (∀ (s : State) (i : Instr), selector s &&& rowMask i = rowMatch i →
    step s = andThen (exec i s) (fun t => .next (elapse s t)) ∧ take s = consumes i)

/-- Every selector of a row, its free bits at every value, decodes to the row; words that are no selector are refused by name. -/
def Obligations.DecodeInvertsEncode : Prop :=
  (∀ (i : Instr) (freeBits : BitVec 9),
    decodeSel (encode i ||| (freeBits &&& ~~~rowMask i)) = i ∧
    decodeWord (encode i ||| (freeBits &&& ~~~rowMask i)).toNat = .ok i) ∧
  (∀ w : Nat, 512 ≤ w → decodeWord w = .error (.notASelector w))

/-- Selectors written out from the vectors of 95_test_vectors.md section 3. -/
def Obligations.TableWordsDecode : Prop :=
  decodeWord 0b100000000 = .ok .reset ∧ decodeWord 0b000001000 = .ok .waitSs ∧
  decodeWord 0b000101000 = .ok .ssMiss ∧ decodeWord 0b000110000 = .ok .ssHit ∧
  decodeWord 0b000111000 = .ok .ssOpen ∧ decodeWord 0b001000110 = .ok .waitSe ∧
  decodeWord 0b001100101 = .ok .ovfDiscard ∧ decodeWord 0b001101000 = .ok .seMiss ∧
  decodeWord 0b001110000 = .ok .seHit ∧ decodeWord 0b001111000 = .ok .seClose ∧
  decodeWord 0b001100100 = .ok .trByte ∧ decodeWord 0b001100110 = .ok .trLast ∧
  decodeWord 0b010100000 = .ok .emit ∧ decodeWord 0b011000000 = .ok .rsvdSt3

/-- The order of the events of one step (R111), and with it the row of every state and input. -/
def Obligations.PriorityOfEvents : Prop :=
  ∀ s : State,
    (rstNow s = true → selected s = .reset) ∧
    (rstNow s = false → s.st = .re → selected s = .emit) ∧
    (rstNow s = false → s.st = .se → av s = true → s.wptr = s.cfg.cap → selected s = .ovfDiscard) ∧
    (rstNow s = true → ∃ t, step s = .next t ∧ t.ovfCount = 0 ∧ ∀ b, offered s = some b → t.src = s.src)

/-- A step performs the operation the table gives for the selector, and then the step passes: `rst` goes on to its next level, and a
step without a byte is over (log 3); nothing else is added. -/
def Obligations.StepPerformsSelectedOperation : Prop :=
  ∀ (s : State) (i : Instr), decodeSel (selector s) = i →
    step s = match exec i s with
      | .next t => .next { t with
          rstIn := t.rstIn.tail
          src := if s.src.head? = some none then t.src.tail else t.src }
      | .fault f => .fault f
      | .refused r => .refused r

/-- The model's placing of a selector (log 8): the next step performs its row. -/
def Obligations.PlacedSelectorIsPerformed : Prop :=
  ∀ (s : State) (nbits w : Nat), s.cfg.wf = true → w < 512 →
    selected (s.withFetchWord nbits w) = decodeSel (BitVec.ofNat 9 w)

/-- R55. -/
def Obligations.UnreachableSelectors : Prop :=
  ∀ s : State, BlockInv s →
    (s.st = .ss → trl s = false ∧ tlast s = false ∧ full s = false) ∧
    (s.st = .se → trl s = true → hit s = false ∧ last s = false) ∧
    (trl s = false → tlast s = false) ∧
    (av s = false → hit s = false) ∧
    (s.st = .re → hit s = false ∧ last s = false ∧ trl s = false ∧ tlast s = false) ∧
    scanCode s.st ≠ 0b11

/-- R77: all changes of the scan state. -/
def Obligations.TransitionTable : Prop :=
  ∀ s t : State, step s = .next t →
    (selected s = .reset ∧ t.st = .ss) ∨
    (s.st = .ss ∧ (selected s = .waitSs ∨ selected s = .ssMiss ∨ selected s = .ssHit) ∧ t.st = .ss) ∨
    (s.st = .ss ∧ selected s = .ssOpen ∧ t.st = .se) ∨
    (s.st = .se ∧ (selected s = .waitSe ∨ selected s = .seMiss ∨ selected s = .seHit ∨ selected s = .seClose ∨
      selected s = .trByte) ∧ t.st = .se) ∨
    (s.st = .se ∧ selected s = .trLast ∧ t.st = .re) ∨
    (s.st = .se ∧ selected s = .ovfDiscard ∧ t.st = .ss) ∨
    (s.st = .re ∧ selected s = .emit ∧ t.st = .ss)

/-! ### Invariants -/

/-- R21 V1 to V6 and the bound of V7, the canonical buffer and the zeros past the frame, kept by every step. -/
def Obligations.EveryStepKeepsInvariants : Prop := ∀ s t : State, BlockInv s → step s = .next t → BlockInv t

/-- The invariants hold after reset, for every part that meets R3, the one of State.reset among them. -/
def Obligations.ResetStateMeetsInvariants : Prop :=
  (∀ c : Config, c.wf = true → BlockInv (State.resetWith c)) ∧ BlockInv State.reset

/-- From a state that keeps the invariants every step has a successor: no stop of the model is reachable. -/
def Obligations.EveryStepGoesOn : Prop := ∀ s : State, BlockInv s → Steps s

/-- The canonical form of the buffer list, kept by every step from every state, reachable or not. -/
def Obligations.EveryStepKeepsBufferCanonical : Prop :=
  ∀ s t : State, s.buf.ok s.cfg.cap → step s = .next t → t.buf.ok t.cfg.cap

/-- R31: the parameters do not change. -/
def Obligations.ParametersAreConstant : Prop :=
  (∀ (i : Instr) (s t : State), exec i s = .next t → t.cfg = s.cfg) ∧
  ∀ s t : State, step s = .next t → t.cfg = s.cfg

/-! ### The frame buffer -/

/-- The laws of the buffer's cells: a read after a write, and a write elsewhere. -/
def Obligations.BufferReadAfterWrite : Prop :=
  ∀ (m : Memory) (x y : Nat) (v : Byte), m.wf = true →
    (m.write x v).read y = (if y = x then v else m.read y) ∧ (m.write x v).wf = true

/-- R80: the check, the consequence that no operation that appends is performed on a full buffer, and that the branch for a full buffer
and the row OVF.DISCARD are the same event (`discardFrame`, once the byte is consumed). -/
def Obligations.AppendChecksTheBoundary : Prop :=
  (∀ (s : State) (b : Byte) (rest : State → Result),
    (s.wptr = s.cfg.cap → append s b rest = .next (discardFrame s)) ∧
    (s.wptr < s.cfg.cap → append s b rest = rest { s with buf := s.buf.write s.wptr b, wptr := s.wptr + 1 })) ∧
  (∀ s : State, s.wptr ≤ s.cfg.cap → selected s = .seMiss ∨ selected s = .seHit ∨ selected s = .seClose ∨
    selected s = .trByte ∨ selected s = .trLast → s.wptr < s.cfg.cap) ∧
  (∀ (s : State) (b : Byte), offered s = some b → exec .ovfDiscard s = .next (discardFrame (dropByte s)))

/-- The model's choice of log 15 (DEDUCED from R80), about cases that no step performs: an operation that appends, run on a full buffer,
is the Overflow event and nothing else. -/
def Obligations.FullAppendIsTheOverflowEvent : Prop :=
  ∀ (s : State) (i : Instr), i = .seMiss ∨ i = .seHit ∨ i = .seClose ∨ i = .trByte ∨ i = .trLast →
    s.wptr = s.cfg.cap → exec i s = exec .ovfDiscard s

/-- R82. -/
def Obligations.ClearEmptiesBufferAndCounters : Prop :=
  ∀ s : State, (∀ a, (clear s).buf.read a = 0x00) ∧
    clear s = { s with buf := (clear s).buf, wptr := 0, sidx := 0, eidx := 0, tcnt := 0, st := .ss }

/-- R106: when the Overflow event is raised and what it does. -/
def Obligations.OverflowRaisedExactlyWhenFull : Prop :=
  (∀ s : State, ovfEvent s = true ↔ rstNow s = false ∧ s.st = .se ∧ av s = true ∧ s.wptr = s.cfg.cap) ∧
  (∀ s t : State, ovfEvent s = true → step s = .next t →
    t.st = .ss ∧ t.wptr = 0 ∧ t.sidx = 0 ∧ t.eidx = 0 ∧ t.tcnt = 0 ∧ (∀ a, t.buf.read a = 0) ∧
    t.q1 = s.q1 ∧ t.q2 = s.q2 ∧ t.ovfCount.toNat = min (s.ovfCount.toNat + 1) (2 ^ 32 - 1) ∧
    t.src = s.src.tail)

/-- R19: what changes the overflow count, and that no operation reads it. -/
def Obligations.OverflowCountSaturates : Prop :=
  (∀ s t : State, step s = .next t →
    (selected s = .reset ∧ t.ovfCount = 0) ∨
    (selected s = .ovfDiscard ∧ t.ovfCount.toNat = min (s.ovfCount.toNat + 1) (2 ^ 32 - 1)) ∨
    (selected s ≠ .reset ∧ selected s ≠ .ovfDiscard ∧ t.ovfCount = s.ovfCount)) ∧
  (∀ (s t : State) (n : BitVec 32), step s = .next t →
    ∃ m, step { s with ovfCount := n } = .next { t with ovfCount := m })

/-- R33: while a frame is open and when it is complete, the bytes collected are the last bytes delivered, in their order. -/
def Obligations.CollectedBytesAreTheWireImage : Prop :=
  ∀ (c : Config) (bytes : List Byte) (t : State), c.wf = true → runHold (State.resetWith c) bytes = .next t →
    t.st ≠ .ss → frameBytes t <:+ bytes

/-- Two Overflow events are at least `CAP` + 1 bytes apart: the first `CAP` bytes after a clear raise none. -/
def Obligations.OverflowsAreFarApart : Prop :=
  ∀ (s t : State) (bytes : List Byte), BlockInv s → s.st = .ss → s.sidx = 0 → bytes.length ≤ s.cfg.cap →
    runHold s bytes = .next t → t.ovfCount = s.ovfCount

/-! ### Frames: what each operation leaves as it was -/

/-- WAIT.SS, WAIT.SE and SS.MISS store nothing. -/
def Obligations.FrameOfOperationsThatStoreNothing : Prop :=
  ∀ (i : Instr) (s t : State), i = .waitSs ∨ i = .waitSe ∨ i = .ssMiss → exec i s = .next t →
    (∀ a, t.buf.read a = s.buf.read a) ∧
    t.cfg = s.cfg ∧ t.st = s.st ∧ t.eidx = s.eidx ∧ t.tcnt = s.tcnt ∧ t.wptr = s.wptr ∧
    t.q1 = s.q1 ∧ t.q2 = s.q2 ∧ t.ovfCount = s.ovfCount ∧ t.rstIn = s.rstIn ∧
    (i ≠ .ssMiss → t.sidx = s.sidx ∧ t.src = s.src)

/-- SS.HIT stores at `sidx`, SS.OPEN at 7. -/
def Obligations.FrameOfStartStores : Prop :=
  ∀ s t : State,
    (exec .ssHit s = .next t →
      (∀ a, a ≠ s.sidx.toNat → t.buf.read a = s.buf.read a) ∧
      t.cfg = s.cfg ∧ t.st = s.st ∧ t.eidx = s.eidx ∧ t.tcnt = s.tcnt ∧ t.wptr = s.wptr ∧
      t.q1 = s.q1 ∧ t.q2 = s.q2 ∧ t.ovfCount = s.ovfCount ∧ t.rstIn = s.rstIn) ∧
    (exec .ssOpen s = .next t →
      (∀ a, a ≠ 7 → t.buf.read a = s.buf.read a) ∧
      t.cfg = s.cfg ∧ t.eidx = s.eidx ∧ t.tcnt = s.tcnt ∧
      t.q1 = s.q1 ∧ t.q2 = s.q2 ∧ t.ovfCount = s.ovfCount ∧ t.rstIn = s.rstIn)

/-- The five operations that append store at `wptr` while there is room; with no room they are the Overflow event (the model's
choice, log 15), whose frame is in `FrameOfClearingOperations`. -/
def Obligations.FrameOfAppendingOperations : Prop :=
  ∀ (i : Instr) (s t : State), i = .seMiss ∨ i = .seHit ∨ i = .seClose ∨ i = .trByte ∨ i = .trLast →
    exec i s = .next t →
    (s.wptr ≠ s.cfg.cap →
      (∀ a, a ≠ s.wptr → t.buf.read a = s.buf.read a) ∧
      t.cfg = s.cfg ∧ t.sidx = s.sidx ∧ t.q1 = s.q1 ∧ t.q2 = s.q2 ∧ t.ovfCount = s.ovfCount ∧
      t.rstIn = s.rstIn ∧
      (i = .seMiss ∨ i = .seHit ∨ i = .seClose → t.st = s.st ∧ t.tcnt = s.tcnt) ∧
      (i = .trByte → t.st = s.st) ∧ (i = .trByte ∨ i = .trLast → t.eidx = s.eidx)) ∧
    (s.wptr = s.cfg.cap → exec .ovfDiscard s = .next t)

/-- EMIT, OVF.DISCARD and RESET clear the whole buffer; the rest is as each says. -/
def Obligations.FrameOfClearingOperations : Prop :=
  ∀ s t : State,
    (exec .emit s = .next t →
      (∀ a, t.buf.read a = 0) ∧ t.cfg = s.cfg ∧ t.ovfCount = s.ovfCount ∧ t.rstIn = s.rstIn ∧ t.src = s.src) ∧
    (exec .ovfDiscard s = .next t →
      (∀ a, t.buf.read a = 0) ∧ t.cfg = s.cfg ∧ t.q1 = s.q1 ∧ t.q2 = s.q2 ∧ t.rstIn = s.rstIn) ∧
    (exec .reset s = .next t →
      (∀ a, t.buf.read a = 0) ∧ t.cfg = s.cfg ∧ t.rstIn = s.rstIn ∧ t.src = s.src)

/-! ### Inputs and outputs -/

/-- R20. -/
def Obligations.DerivedFlags : Prop :=
  (∀ s : State, (inReady s = true ↔ s.st ≠ .re) ∧ (frameReady s = true ↔ s.st = .re) ∧
    (ovfEvent s = true ↔ selected s = .ovfDiscard)) ∧
  ∀ c : Config, inReady (State.resetWith c) = true ∧ frameReady (State.resetWith c) = false ∧
    ovfEvent (State.resetWith c) = false

/-- When a byte is taken, that a taken byte is gone and that an untaken byte stays on offer. -/
def Obligations.BytesAreTakenOnceAndInOrder : Prop :=
  (∀ s : State, s.st ≠ .reserved →
    (take s = true ↔ rstNow s = false ∧ av s = true ∧ s.st ≠ .re)) ∧
  (∀ s t : State, step s = .next t → take s = true → t.src = s.src.tail) ∧
  (∀ s t : State, step s = .next t → take s = false → ∀ b, offered s = some b → t.src = s.src ∧ offered t = some b)

/-- R26. -/
def Obligations.FrameReadPort : Prop :=
  ∀ (s : State) (a : Nat), (a < s.wptr → frameByte s a = s.buf.read a) ∧ (s.wptr ≤ a → frameByte s a = 0x00)

/-- R117. -/
def Obligations.EventLabels : Prop :=
  ∀ t : State,
    label .ssOpen t = some .frameOpened ∧ label .trLast t = some (.frameClosed t.wptr) ∧
    label .emit t = some (.frameEmitted t.q1 t.q2) ∧ label .ovfDiscard t = some .overflow ∧
    label .reset t = some .reset ∧
    label .waitSs t = none ∧ label .ssMiss t = none ∧ label .ssHit t = none ∧ label .waitSe t = none ∧
    label .seMiss t = none ∧ label .seHit t = none ∧ label .seClose t = none ∧ label .trByte t = none ∧
    label .rsvdSt3 t = none

/-- Which operations write the reading registers, and that only EMIT reads them. -/
def Obligations.OnlyEmitAndResetWriteReadings : Prop :=
  (∀ s t : State, step s = .next t → selected s ≠ .emit → selected s ≠ .reset → t.q1 = s.q1 ∧ t.q2 = s.q2) ∧
  (∀ (s t : State) (v w : Word), step s = .next t →
    ∃ v' w', step { s with q1 := v, q2 := w } = .next { t with q1 := v', q2 := w' })

/-! ### The Register Extractor -/

/-- R92. -/
def Obligations.MatchIsByteEquality : Prop :=
  ∀ (m : Memory) (sig : List Byte) (o : Nat),
    matchAt m sig o = true ↔ ∀ i, i < sig.length → some (m.read (o + i)) = sig[i]?

/-- R91: the closed form. -/
def Obligations.ExtractTakesGreatestMatch : Prop :=
  ∀ (c : Config) (m : Memory) (len : Nat) (a1 a2 : Word), c.wf = true →
    (fsig1 c).length = 18 ∧ (fsig2 c).length = 14 ∧
    ((∀ o, o + 26 ≤ len → matchAt m (fsig1 c) o = false) → (extract c m len a1 a2).1 = a1) ∧
    (∀ o, o + 26 ≤ len → matchAt m (fsig1 c) o = true →
      (∀ p, o < p → p + 26 ≤ len → matchAt m (fsig1 c) p = false) →
      (extract c m len a1 a2).1 = memRead8 m (o + 18)) ∧
    ((∀ o, o + 22 ≤ len → matchAt m (fsig2 c) o = false) → (extract c m len a1 a2).2 = a2) ∧
    (∀ o, o + 22 ≤ len → matchAt m (fsig2 c) o = true →
      (∀ p, o < p → p + 22 ≤ len → matchAt m (fsig2 c) p = false) →
      (extract c m len a1 a2).2 = memRead8 m (o + 14))

/-- Nothing at or above `len` is looked at. -/
def Obligations.ExtractReadsOnlyTheFrame : Prop :=
  ∀ (c : Config) (m m' : Memory) (len : Nat) (a1 a2 : Word), (∀ a, a < len → m.read a = m'.read a) →
    extract c m len a1 a2 = extract c m' len a1 a2

/-- R99. -/
def Obligations.ExtractIsIdempotent : Prop :=
  ∀ (c : Config) (m : Memory) (len : Nat) (a1 a2 : Word),
    extract c m len (extract c m len a1 a2).1 (extract c m len a1 a2).2 = extract c m len a1 a2

/-- R34 and R50: the byte at the lowest address is the most significant one. -/
def Obligations.ValueIsBigEndian : Prop :=
  (∀ (m : Memory) (p : Nat),
    (memRead8 m p).extractLsb' 56 8 = m.read p ∧ (memRead8 m p).extractLsb' 48 8 = m.read (p + 1) ∧
    (memRead8 m p).extractLsb' 40 8 = m.read (p + 2) ∧ (memRead8 m p).extractLsb' 32 8 = m.read (p + 3) ∧
    (memRead8 m p).extractLsb' 24 8 = m.read (p + 4) ∧ (memRead8 m p).extractLsb' 16 8 = m.read (p + 5) ∧
    (memRead8 m p).extractLsb' 8 8 = m.read (p + 6) ∧ (memRead8 m p).extractLsb' 0 8 = m.read (p + 7)) ∧
  (∀ (m : Memory) (p : Nat), readBytes m p 8 = [0x00, 0x00, 0x00, 0x00, 0x00, 0x01, 0x86, 0xA0] →
    memRead8 m p = 100000)

/-- A field at any offset of a frame is read back whole, every 64-bit value for every part, when no later occurrence of its signature is
in range (R46, R93, R94, R97). -/
def Obligations.FieldValueIsReadBack : Prop :=
  ∀ (c : Config) (m : Memory) (v a1 a2 : Word) (o len : Nat), c.wf = true →
    (readBytes m o 26 = field1 c v → o + 26 ≤ len →
      (∀ p, o < p → p + 26 ≤ len → matchAt m (fsig1 c) p = false) → (extract c m len a1 a2).1 = v) ∧
    (readBytes m o 22 = field2 c v → o + 22 ≤ len →
      (∀ p, o < p → p + 22 ≤ len → matchAt m (fsig2 c) p = false) → (extract c m len a1 a2).2 = v)

/-- R96, the exact quotient. That the 64 bits are read as two's complement is the spec's own addition (G1 of
93_implementation_defined.md; log 12). -/
def Obligations.ReadingIsExactQuotient : Prop :=
  (∀ v : Word, signed64 v = (if v.toNat < 2 ^ 63 then (v.toNat : Int) else (v.toNat : Int) - 2 ^ 64) ∧
    readingOf v = (signed64 v : Rat) / 10000 ∧
    -9223372036854775808 / 10000 ≤ readingOf v ∧ readingOf v ≤ 9223372036854775807 / 10000) ∧
  readingOf 100000 = 10

/-- R135: a field signature, the first or the second, that ends exactly at the end of the payload takes the end signature and the three
trailer bytes as its value. -/
def Obligations.SignatureAtPayloadEndReadsFurniture : Prop :=
  ∀ s t : State, BlockInv s → s.st = .re → rstNow s = false → step s = .next t →
    (26 ≤ s.wptr → matchAt s.buf (fsig1 s.cfg) (s.wptr - 26) = true →
      t.q1 = 0x1B#8 ++ 0x1B#8 ++ 0x1B#8 ++ 0x1B#8 ++ 0x1A#8 ++
        s.buf.read (s.wptr - 3) ++ s.buf.read (s.wptr - 2) ++ s.buf.read (s.wptr - 1)) ∧
    (22 ≤ s.wptr → matchAt s.buf (fsig2 s.cfg) (s.wptr - 22) = true →
      t.q2 = 0x1B#8 ++ 0x1B#8 ++ 0x1B#8 ++ 0x1B#8 ++ 0x1A#8 ++
        s.buf.read (s.wptr - 3) ++ s.buf.read (s.wptr - 2) ++ s.buf.read (s.wptr - 1))

/-! ### Runs over a byte stream -/

/-- R76, both halves. -/
def Obligations.RunLengthLaw : Prop :=
  (∀ (s : State) (n : Nat), s.cfg.wf = true → s.st = .ss → s.sidx = 0 →
    ∃ t, runHold s (List.replicate n 0x1B ++ [0x01, 0x01, 0x01, 0x01]) = .next t ∧
      (n % 5 = 4 → t.st = .se ∧ t.sidx = 8 ∧ t.wptr = 8) ∧ (n % 5 ≠ 4 → t.st = .ss ∧ t.sidx = 0)) ∧
  (∀ (s : State) (n : Nat), s.st = .se → s.eidx = 0 → s.wptr + n + 1 ≤ s.cfg.cap →
    ∃ t, runHold s (List.replicate n 0x1B ++ [0x1A]) = .next t ∧ t.st = .se ∧ t.wptr = s.wptr + n + 1 ∧
      (n % 5 = 4 → t.eidx = 5) ∧ (n % 5 ≠ 4 → t.eidx = 0))

/-- During the bytes, from the state, `eidx` never reaches 5 (the premise of R78). -/
def Sys2Proof.Machine.EndNotReached (s : State) (bytes : List Byte) : Prop :=
  ∀ p u, p <+: bytes → runHold s p = .next u → u.eidx ≠ 5

/-- R78 (a), (b), (c). In (a) "performs no EMIT" is said as: no state on the way is in RE, the only one EMIT is selected in. -/
def Obligations.ScannerProperties : Prop :=
  (∀ (c : Config) (payload : List Byte), c.wf = true → 8 + payload.length ≤ c.cap →
    EndNotReached (State.resetWith c) (startSig ++ payload) →
    ∃ t, runHold (State.resetWith c) (startSig ++ payload) = .next t ∧
      t.st = .se ∧ t.wptr = 8 + payload.length ∧ readBytes t.buf 8 payload.length = payload ∧
      ∀ p u, p <+: startSig ++ payload → runHold (State.resetWith c) p = .next u → u.st ≠ .re) ∧
  (∀ (c : Config) (payload : List Byte) (x y z : Byte) (u : State), c.wf = true →
    8 + payload.length + 5 + 3 ≤ c.cap → EndNotReached (State.resetWith c) (startSig ++ payload) →
    runHold (State.resetWith c) (startSig ++ payload) = .next u → u.eidx = 0 →
    ∃ t, runHold (State.resetWith c) (frame payload x y z) = .next t ∧
      t.st = .re ∧ t.wptr = 8 + payload.length + 5 + 3 ∧ readBytes t.buf 8 payload.length = payload) ∧
  (∀ (c : Config) (k : Nat) (b : Byte), c.wf = true → k < 8 → startSig[k]? ≠ some b →
    ∃ t, runHold (State.resetWith c) (startSig.take k ++ [b]) = .next t ∧
      t.st = .ss ∧ t.sidx = 0 ∧ t.wptr = 0)

/-- The result of a run depends on the bytes and not on when they arrive: steps without a byte may stand anywhere (R127). -/
def Obligations.IdleStepsDoNotMatter : Prop :=
  ∀ (s t : State) (stream : List (Option Byte)), BlockInv s →
    run s (stream.filterMap id) = .next t →
    ∃ k, Host.Core.run Sys2Proof.core k { s with rstIn := [], src := stream } =
      .next { t with rstIn := [], src := [] }
end

