-- ==== Sys2Proof/Laws/Memory.lean ====
section
/-! SUPPORT. The frame buffer's cell list: a read after a write, and that every memory operation keeps the canonical form. -/

namespace Sys2Proof.Machine

@[simp] theorem Memory.read_nil (x : Nat) : Memory.read [] x = 0 := rfl

theorem Memory.read_cons (a : Nat) (b : Byte) (m : Memory) (x : Nat) :
    Memory.read ((a, b) :: m) x = if a = x then b else Memory.read m x := rfl

/-- An address below every listed one reads 00. -/
theorem Memory.read_of_lt_all (m : Memory) (x : Nat) (h : ∀ c ∈ m, x < c.1) : m.read x = 0 := by
  induction m with
  | nil => rfl
  | cons c m ih =>
    obtain ⟨a, b⟩ := c
    have ha : x < a := h (a, b) (by simp)
    rw [Memory.read_cons, if_neg (by omega)]
    exact ih fun c hc => h c (by simp [hc])

@[simp] theorem Memory.wf_nil : Memory.wf [] = true := rfl

/-- The canonical form, cell by cell. -/
theorem Memory.wf_cons (a : Nat) (b : Byte) (m : Memory) :
    Memory.wf ((a, b) :: m) = true ↔ b ≠ 0 ∧ (∀ c ∈ m, a < c.1) ∧ Memory.wf m = true := by
  simp [Memory.wf, and_assoc]

/-- A write leaves every other address alone. -/
theorem Memory.read_write_ne (m : Memory) (x y : Nat) (v : Byte) (h : y ≠ x) :
    (m.write x v).read y = m.read y := by
  induction m with
  | nil =>
    unfold Memory.write
    split <;> simp [Memory.read_cons, Ne.symm h]
  | cons c m ih =>
    obtain ⟨a, b⟩ := c
    unfold Memory.write
    split
    · split <;> simp [Memory.read_cons, Ne.symm h]
    · split
      · next hx =>
        subst hx
        split <;> simp [Memory.read_cons, Ne.symm h]
      · simp [Memory.read_cons, ih]

/-- A read after a write to the same address gives the value written. -/
theorem Memory.read_write_self (m : Memory) (x : Nat) (v : Byte) (h : m.wf = true) :
    (m.write x v).read x = v := by
  induction m with
  | nil =>
    unfold Memory.write
    split
    · next hv => simp [hv]
    · simp [Memory.read_cons]
  | cons c m ih =>
    obtain ⟨a, b⟩ := c
    obtain ⟨-, hlt, hm⟩ := (Memory.wf_cons a b m).1 h
    unfold Memory.write
    split
    · next hx =>
      split
      · next hv =>
        rw [hv]
        refine Memory.read_of_lt_all _ _ fun c hc => ?_
        rcases List.mem_cons.1 hc with rfl | hc
        · exact hx
        · exact hx.trans (hlt c hc)
      · simp [Memory.read_cons]
    · split
      · next hx =>
        subst hx
        split
        · next hv =>
          rw [hv]
          exact Memory.read_of_lt_all _ _ hlt
        · simp [Memory.read_cons]
      · next hne =>
        rw [Memory.read_cons, if_neg (fun e => hne e.symm)]
        exact ih hm

/-- What a cell of the list after a write is: the one written, or a cell of before. -/
theorem Memory.mem_write (m : Memory) (x : Nat) (v : Byte) (c : Host.Cell) (h : c ∈ m.write x v) :
    c = (x, v) ∨ c ∈ m := by
  induction m with
  | nil =>
    unfold Memory.write at h
    split at h
    · simp at h
    · exact .inl (by simpa using h)
  | cons d m ih =>
    obtain ⟨a, b⟩ := d
    unfold Memory.write at h
    split at h
    · split at h
      · exact .inr h
      · rcases List.mem_cons.1 h with h | h
        · exact .inl h
        · exact .inr h
    · split at h
      · split at h
        · exact .inr (List.mem_cons_of_mem _ h)
        · next hx _ =>
          rcases List.mem_cons.1 h with h | h
          · exact .inl (by rw [h, hx])
          · exact .inr (List.mem_cons_of_mem _ h)
      · rcases List.mem_cons.1 h with h | h
        · exact .inr (h ▸ List.mem_cons_self)
        · exact (ih h).imp id (List.mem_cons_of_mem _)

/-- A write keeps the canonical form. -/
theorem Memory.wf_write (m : Memory) (x : Nat) (v : Byte) (h : m.wf = true) : (m.write x v).wf = true := by
  induction m with
  | nil =>
    unfold Memory.write
    split
    · rfl
    · next hv => exact (Memory.wf_cons _ _ _).2 ⟨hv, by simp, rfl⟩
  | cons c m ih =>
    obtain ⟨a, b⟩ := c
    obtain ⟨hb, hlt, hm⟩ := (Memory.wf_cons a b m).1 h
    unfold Memory.write
    split
    · next hx =>
      split
      · exact h
      · next hv =>
        refine (Memory.wf_cons _ _ _).2 ⟨hv, fun c hc => ?_, h⟩
        rcases List.mem_cons.1 hc with rfl | hc
        · exact hx
        · exact hx.trans (hlt c hc)
    · next hx =>
      split
      · split
        · exact hm
        · next hv => exact (Memory.wf_cons _ _ _).2 ⟨hv, hlt, hm⟩
      · next hne =>
        refine (Memory.wf_cons _ _ _).2 ⟨hb, fun c hc => ?_, ih hm⟩
        rcases Memory.mem_write m x v c hc with rfl | hc
        · exact lt_of_le_of_ne (not_lt.1 hx) (Ne.symm hne)
        · exact hlt c hc

theorem Memory.ok_nil (cap : Nat) : Memory.ok [] cap := ⟨rfl, by simp⟩

/-- The buffer after reset and after a clear is sound. -/
theorem clear_buf_ok (s : State) (cap : Nat) : (clear s).buf.ok cap := Memory.ok_nil cap

theorem reset_buf_ok : State.reset.buf.ok State.reset.cfg.cap := Memory.ok_nil _

/-- A write below the capacity keeps the buffer list sound. -/
theorem Memory.ok_write {m : Memory} {cap : Nat} (h : m.ok cap) {x : Nat} (hx : x < cap) (v : Byte) :
    (m.write x v).ok cap := by
  refine ⟨Memory.wf_write m x v h.1, fun c hc => ?_⟩
  rcases Memory.mem_write m x v c hc with rfl | hc
  · exact hx
  · exact h.2 c hc

/-- Two canonical lists that read the same everywhere are the same list. -/
theorem Memory.eq_of_read_eq {m n : Memory} (hm : m.wf = true) (hn : n.wf = true)
    (h : ∀ x, m.read x = n.read x) : m = n := by
  induction m generalizing n with
  | nil =>
    cases n with
    | nil => rfl
    | cons d n =>
      obtain ⟨a, b⟩ := d
      exact absurd (by simpa [Memory.read_cons] using (h a).symm) ((Memory.wf_cons a b n).1 hn).1
  | cons c m ih =>
    obtain ⟨a, b⟩ := c
    obtain ⟨hb, hlt, hm'⟩ := (Memory.wf_cons a b m).1 hm
    cases n with
    | nil => exact absurd (by simpa [Memory.read_cons] using h a) hb
    | cons d n =>
      obtain ⟨a', b'⟩ := d
      obtain ⟨hb', hlt', hn'⟩ := (Memory.wf_cons a' b' n).1 hn
      have haa : a = a' := by
        rcases lt_trichotomy a a' with hl | he | hl
        · have h1 := h a
          rw [Memory.read_cons, if_pos rfl, Memory.read_of_lt_all] at h1
          · exact absurd h1 hb
          · intro c hc
            rcases List.mem_cons.1 hc with rfl | hc
            · exact hl
            · exact hl.trans (hlt' c hc)
        · exact he
        · have h1 := h a'
          rw [Memory.read_of_lt_all, Memory.read_cons, if_pos rfl] at h1
          · exact absurd h1.symm hb'
          · intro c hc
            rcases List.mem_cons.1 hc with rfl | hc
            · exact hl
            · exact hl.trans (hlt c hc)
      subst haa
      have hbb : b = b' := by simpa [Memory.read_cons] using h a
      subst hbb
      refine congrArg _ (ih hm' hn' fun x => ?_)
      by_cases hx : a = x
      · subst hx
        rw [Memory.read_of_lt_all m a hlt, Memory.read_of_lt_all n a hlt']
      · simpa [Memory.read_cons, hx] using h x

/-- Every byte of `readBytes` is a read, and the other way round. -/
theorem readBytes_eq_iff (m : Memory) (p : Nat) (l : List Byte) :
    readBytes m p l.length = l ↔ ∀ i, i < l.length → some (m.read (p + i)) = l[i]? := by
  unfold readBytes
  constructor
  · intro h i hi
    have h2 : ((List.range l.length).map (fun i => m.read (p + i)))[i]? = l[i]? := by rw [h]
    rw [← h2, List.getElem?_map, List.getElem?_range hi]
    rfl
  · intro h
    refine List.ext_getElem? fun i => ?_
    by_cases hi : i < l.length
    · rw [List.getElem?_map, List.getElem?_range hi, ← h i hi]
      rfl
    · rw [List.getElem?_eq_none (by simpa using hi), List.getElem?_eq_none (by simpa using hi)]

@[simp] theorem readBytes_length (m : Memory) (p n : Nat) : (readBytes m p n).length = n := by
  simp [readBytes]

theorem readBytes_zero (m : Memory) (p : Nat) : readBytes m p 0 = [] := rfl

/-- One byte more at the end. -/
theorem readBytes_succ (m : Memory) (p n : Nat) :
    readBytes m p (n + 1) = readBytes m p n ++ [m.read (p + n)] := by
  simp [readBytes, List.range_succ]

/-- A stretch in two parts. -/
theorem readBytes_add (m : Memory) (p n k : Nat) :
    readBytes m p (n + k) = readBytes m p n ++ readBytes m (p + n) k := by
  induction k with
  | zero => simp [readBytes_zero]
  | succ k ih => rw [← Nat.add_assoc, readBytes_succ, ih, readBytes_succ, List.append_assoc, Nat.add_assoc]

/-- A stretch that a write does not touch reads as before. -/
theorem readBytes_write_of_outside (m : Memory) (x : Nat) (v : Byte) (p n : Nat) (h : x < p ∨ p + n ≤ x) :
    readBytes (m.write x v) p n = readBytes m p n := by
  unfold readBytes
  refine List.map_congr_left fun i hi => Memory.read_write_ne m x (p + i) v ?_
  have := List.mem_range.1 hi
  omega

end Sys2Proof.Machine
end

