-- ==== Sys2Proof/Laws/Decode.lean ====
section
/-! SUPPORT. The operation table as a decision on the condition bits of R47: the row of R48 that the selector of a state picks. -/

namespace Sys2Proof

namespace Machine

/-- The table of R48 as a decision on the condition bits. -/
def opOf (rst : Bool) (st : ScanState) (av hit last trl tlast full : Bool) : Instr :=
  if rst then .reset else
  match st with
  | .ss => if !av then .waitSs else if !hit then .ssMiss else if last then .ssOpen else .ssHit
  | .se =>
    if !av then .waitSe else if full then .ovfDiscard
    else if trl then (if tlast then .trLast else .trByte)
    else if !hit then .seMiss else if last then .seClose else .seHit
  | .re => .emit
  | .reserved => .rsvdSt3

/-- The decision and the table agree on every combination of bits. -/
theorem decodeSel_bits (r : Bool) (st : ScanState) (a h l t u f : Bool) :
    decodeSel (BitVec.ofBool r ++ scanCode st ++ BitVec.ofBool a ++ BitVec.ofBool h ++ BitVec.ofBool l ++
      BitVec.ofBool t ++ BitVec.ofBool u ++ BitVec.ofBool f) = opOf r st a h l t u f := by
  revert r a h l t u f
  cases st <;> decide +kernel

/-- The operation a step performs, as a decision on the state and the inputs. -/
theorem selected_eq (s : State) :
    selected s = opOf (rstNow s) s.st (av s) (hit s) (last s) (trl s) (tlast s) (full s) :=
  decodeSel_bits _ _ _ _ _ _ _ _

end Machine

end Sys2Proof
end

