-- ==== Sys2Proof/Laws/State.lean ====
section
/-! SUPPORT. One lemma for each field of State and each named update: what the field is after the update. All are true by rfl and are simp
lemmas, so that no proof has to unfold a record update. -/

namespace Sys2Proof.Machine

@[simp] theorem dropByte_cfg (s : State) : (dropByte s).cfg = s.cfg := rfl
@[simp] theorem dropByte_st (s : State) : (dropByte s).st = s.st := rfl
@[simp] theorem dropByte_sidx (s : State) : (dropByte s).sidx = s.sidx := rfl
@[simp] theorem dropByte_eidx (s : State) : (dropByte s).eidx = s.eidx := rfl
@[simp] theorem dropByte_tcnt (s : State) : (dropByte s).tcnt = s.tcnt := rfl
@[simp] theorem dropByte_wptr (s : State) : (dropByte s).wptr = s.wptr := rfl
@[simp] theorem dropByte_buf (s : State) : (dropByte s).buf = s.buf := rfl
@[simp] theorem dropByte_q1 (s : State) : (dropByte s).q1 = s.q1 := rfl
@[simp] theorem dropByte_q2 (s : State) : (dropByte s).q2 = s.q2 := rfl
@[simp] theorem dropByte_ovfCount (s : State) : (dropByte s).ovfCount = s.ovfCount := rfl
@[simp] theorem dropByte_rstIn (s : State) : (dropByte s).rstIn = s.rstIn := rfl
@[simp] theorem dropByte_src (s : State) : (dropByte s).src = s.src.tail := rfl

@[simp] theorem clear_cfg (s : State) : (clear s).cfg = s.cfg := rfl
@[simp] theorem clear_st (s : State) : (clear s).st = .ss := rfl
@[simp] theorem clear_sidx (s : State) : (clear s).sidx = 0 := rfl
@[simp] theorem clear_eidx (s : State) : (clear s).eidx = 0 := rfl
@[simp] theorem clear_tcnt (s : State) : (clear s).tcnt = 0 := rfl
@[simp] theorem clear_wptr (s : State) : (clear s).wptr = 0 := rfl
@[simp] theorem clear_buf (s : State) : (clear s).buf = [] := rfl
@[simp] theorem clear_q1 (s : State) : (clear s).q1 = s.q1 := rfl
@[simp] theorem clear_q2 (s : State) : (clear s).q2 = s.q2 := rfl
@[simp] theorem clear_ovfCount (s : State) : (clear s).ovfCount = s.ovfCount := rfl
@[simp] theorem clear_rstIn (s : State) : (clear s).rstIn = s.rstIn := rfl
@[simp] theorem clear_src (s : State) : (clear s).src = s.src := rfl

@[simp] theorem discardFrame_cfg (s : State) : (discardFrame s).cfg = s.cfg := rfl
@[simp] theorem discardFrame_st (s : State) : (discardFrame s).st = .ss := rfl
@[simp] theorem discardFrame_sidx (s : State) : (discardFrame s).sidx = 0 := rfl
@[simp] theorem discardFrame_eidx (s : State) : (discardFrame s).eidx = 0 := rfl
@[simp] theorem discardFrame_tcnt (s : State) : (discardFrame s).tcnt = 0 := rfl
@[simp] theorem discardFrame_wptr (s : State) : (discardFrame s).wptr = 0 := rfl
@[simp] theorem discardFrame_buf (s : State) : (discardFrame s).buf = [] := rfl
@[simp] theorem discardFrame_q1 (s : State) : (discardFrame s).q1 = s.q1 := rfl
@[simp] theorem discardFrame_q2 (s : State) : (discardFrame s).q2 = s.q2 := rfl
@[simp] theorem discardFrame_ovfCount (s : State) : (discardFrame s).ovfCount = sat32 (s.ovfCount.toNat + 1) := rfl
@[simp] theorem discardFrame_rstIn (s : State) : (discardFrame s).rstIn = s.rstIn := rfl
@[simp] theorem discardFrame_src (s : State) : (discardFrame s).src = s.src := rfl

@[simp] theorem resetBlock_cfg (s : State) : (resetBlock s).cfg = s.cfg := rfl
@[simp] theorem resetBlock_st (s : State) : (resetBlock s).st = .ss := rfl
@[simp] theorem resetBlock_sidx (s : State) : (resetBlock s).sidx = 0 := rfl
@[simp] theorem resetBlock_eidx (s : State) : (resetBlock s).eidx = 0 := rfl
@[simp] theorem resetBlock_tcnt (s : State) : (resetBlock s).tcnt = 0 := rfl
@[simp] theorem resetBlock_wptr (s : State) : (resetBlock s).wptr = 0 := rfl
@[simp] theorem resetBlock_buf (s : State) : (resetBlock s).buf = [] := rfl
@[simp] theorem resetBlock_q1 (s : State) : (resetBlock s).q1 = unsetReading := rfl
@[simp] theorem resetBlock_q2 (s : State) : (resetBlock s).q2 = unsetReading := rfl
@[simp] theorem resetBlock_ovfCount (s : State) : (resetBlock s).ovfCount = 0 := rfl
@[simp] theorem resetBlock_rstIn (s : State) : (resetBlock s).rstIn = s.rstIn := rfl
@[simp] theorem resetBlock_src (s : State) : (resetBlock s).src = s.src := rfl

@[simp] theorem elapse_cfg (s t : State) : (elapse s t).cfg = t.cfg := rfl
@[simp] theorem elapse_st (s t : State) : (elapse s t).st = t.st := rfl
@[simp] theorem elapse_sidx (s t : State) : (elapse s t).sidx = t.sidx := rfl
@[simp] theorem elapse_eidx (s t : State) : (elapse s t).eidx = t.eidx := rfl
@[simp] theorem elapse_tcnt (s t : State) : (elapse s t).tcnt = t.tcnt := rfl
@[simp] theorem elapse_wptr (s t : State) : (elapse s t).wptr = t.wptr := rfl
@[simp] theorem elapse_buf (s t : State) : (elapse s t).buf = t.buf := rfl
@[simp] theorem elapse_q1 (s t : State) : (elapse s t).q1 = t.q1 := rfl
@[simp] theorem elapse_q2 (s t : State) : (elapse s t).q2 = t.q2 := rfl
@[simp] theorem elapse_ovfCount (s t : State) : (elapse s t).ovfCount = t.ovfCount := rfl
@[simp] theorem elapse_rstIn (s t : State) : (elapse s t).rstIn = t.rstIn.tail := rfl
@[simp] theorem elapse_src (s t : State) : (elapse s t).src = if s.src.head? = some none then t.src.tail else t.src := rfl

@[simp] theorem offerByte_cfg (s : State) (b : Byte) : (offerByte s b).cfg = s.cfg := rfl
@[simp] theorem offerByte_st (s : State) (b : Byte) : (offerByte s b).st = s.st := rfl
@[simp] theorem offerByte_sidx (s : State) (b : Byte) : (offerByte s b).sidx = s.sidx := rfl
@[simp] theorem offerByte_eidx (s : State) (b : Byte) : (offerByte s b).eidx = s.eidx := rfl
@[simp] theorem offerByte_tcnt (s : State) (b : Byte) : (offerByte s b).tcnt = s.tcnt := rfl
@[simp] theorem offerByte_wptr (s : State) (b : Byte) : (offerByte s b).wptr = s.wptr := rfl
@[simp] theorem offerByte_buf (s : State) (b : Byte) : (offerByte s b).buf = s.buf := rfl
@[simp] theorem offerByte_q1 (s : State) (b : Byte) : (offerByte s b).q1 = s.q1 := rfl
@[simp] theorem offerByte_q2 (s : State) (b : Byte) : (offerByte s b).q2 = s.q2 := rfl
@[simp] theorem offerByte_ovfCount (s : State) (b : Byte) : (offerByte s b).ovfCount = s.ovfCount := rfl
@[simp] theorem offerByte_rstIn (s : State) (b : Byte) : (offerByte s b).rstIn = [] := rfl
@[simp] theorem offerByte_src (s : State) (b : Byte) : (offerByte s b).src = [some b] := rfl

@[simp] theorem offerNone_cfg (s : State) : (offerNone s).cfg = s.cfg := rfl
@[simp] theorem offerNone_st (s : State) : (offerNone s).st = s.st := rfl
@[simp] theorem offerNone_sidx (s : State) : (offerNone s).sidx = s.sidx := rfl
@[simp] theorem offerNone_eidx (s : State) : (offerNone s).eidx = s.eidx := rfl
@[simp] theorem offerNone_tcnt (s : State) : (offerNone s).tcnt = s.tcnt := rfl
@[simp] theorem offerNone_wptr (s : State) : (offerNone s).wptr = s.wptr := rfl
@[simp] theorem offerNone_buf (s : State) : (offerNone s).buf = s.buf := rfl
@[simp] theorem offerNone_q1 (s : State) : (offerNone s).q1 = s.q1 := rfl
@[simp] theorem offerNone_q2 (s : State) : (offerNone s).q2 = s.q2 := rfl
@[simp] theorem offerNone_ovfCount (s : State) : (offerNone s).ovfCount = s.ovfCount := rfl
@[simp] theorem offerNone_rstIn (s : State) : (offerNone s).rstIn = [] := rfl
@[simp] theorem offerNone_src (s : State) : (offerNone s).src = [] := rfl

@[simp] theorem raiseReset_cfg (s : State) : (raiseReset s).cfg = s.cfg := rfl
@[simp] theorem raiseReset_st (s : State) : (raiseReset s).st = s.st := rfl
@[simp] theorem raiseReset_sidx (s : State) : (raiseReset s).sidx = s.sidx := rfl
@[simp] theorem raiseReset_eidx (s : State) : (raiseReset s).eidx = s.eidx := rfl
@[simp] theorem raiseReset_tcnt (s : State) : (raiseReset s).tcnt = s.tcnt := rfl
@[simp] theorem raiseReset_wptr (s : State) : (raiseReset s).wptr = s.wptr := rfl
@[simp] theorem raiseReset_buf (s : State) : (raiseReset s).buf = s.buf := rfl
@[simp] theorem raiseReset_q1 (s : State) : (raiseReset s).q1 = s.q1 := rfl
@[simp] theorem raiseReset_q2 (s : State) : (raiseReset s).q2 = s.q2 := rfl
@[simp] theorem raiseReset_ovfCount (s : State) : (raiseReset s).ovfCount = s.ovfCount := rfl
@[simp] theorem raiseReset_rstIn (s : State) : (raiseReset s).rstIn = [true] := rfl
@[simp] theorem raiseReset_src (s : State) : (raiseReset s).src = [] := rfl

/-! The reset state of a part (R121). -/

@[simp] theorem resetWith_cfg (c : Config) : (State.resetWith c).cfg = c := rfl
@[simp] theorem resetWith_st (c : Config) : (State.resetWith c).st = .ss := rfl
@[simp] theorem resetWith_sidx (c : Config) : (State.resetWith c).sidx = 0 := rfl
@[simp] theorem resetWith_eidx (c : Config) : (State.resetWith c).eidx = 0 := rfl
@[simp] theorem resetWith_tcnt (c : Config) : (State.resetWith c).tcnt = 0 := rfl
@[simp] theorem resetWith_wptr (c : Config) : (State.resetWith c).wptr = 0 := rfl
@[simp] theorem resetWith_buf (c : Config) : (State.resetWith c).buf = [] := rfl
@[simp] theorem resetWith_q1 (c : Config) : (State.resetWith c).q1 = unsetReading := rfl
@[simp] theorem resetWith_q2 (c : Config) : (State.resetWith c).q2 = unsetReading := rfl
@[simp] theorem resetWith_ovfCount (c : Config) : (State.resetWith c).ovfCount = 0 := rfl
@[simp] theorem resetWith_rstIn (c : Config) : (State.resetWith c).rstIn = [] := rfl
@[simp] theorem resetWith_src (c : Config) : (State.resetWith c).src = [] := rfl

/-! The inputs under the input settings of R54 and R127, and the sequencing of outcomes. -/

@[simp] theorem offered_offerByte (s : State) (b : Byte) : offered (offerByte s b) = some b := rfl
@[simp] theorem offered_offerNone (s : State) : offered (offerNone s) = none := rfl
@[simp] theorem offered_raiseReset (s : State) : offered (raiseReset s) = none := rfl
@[simp] theorem rstNow_offerByte (s : State) (b : Byte) : rstNow (offerByte s b) = false := rfl
@[simp] theorem rstNow_offerNone (s : State) : rstNow (offerNone s) = false := rfl
@[simp] theorem rstNow_raiseReset (s : State) : rstNow (raiseReset s) = true := rfl
@[simp] theorem andThen_next (s : State) (k : State → Result) : andThen (.next s) k = k s := rfl
@[simp] theorem andThen_fault (f : Fault) (k : State → Result) : andThen (.fault f) k = .fault f := rfl
@[simp] theorem andThen_refused (e : Refusal) (k : State → Result) : andThen (.refused e) k = .refused e := rfl
@[simp] theorem nextState_next (s : State) : nextState (.next s) = some s := rfl
@[simp] theorem nextState_fault (f : Fault) : nextState (.fault f) = none := rfl
@[simp] theorem nextState_refused (e : Refusal) : nextState (.refused e) = none := rfl

/-- An outcome that goes on was made of two that go on. -/
theorem andThen_eq_next {r : Result} {k : State → Result} {t : State} :
    andThen r k = .next t ↔ ∃ u, r = .next u ∧ k u = .next t := by
  cases r <;> simp [andThen]

theorem nextState_eq_some {r : Result} {t : State} : nextState r = some t ↔ r = .next t := by
  cases r <;> simp [nextState]

/-- The byte on offer heads the source. -/
theorem offered_eq_some {s : State} {b : Byte} : offered s = some b ↔ s.src.head? = some (some b) := by
  unfold offered
  split <;> simp_all
  next h => cases hs : s.src with
    | nil => simp
    | cons o l => cases o with
      | none => simp
      | some c => exact absurd hs (h c l)

end Sys2Proof.Machine
end

