-- ==== Sys2Proof/Laws/Exec.lean ====
section
/-! SUPPORT. What each shared operation and each operation of the table answers, and everything a step can do. Provers cite these and do
not unfold the machine. -/

namespace Sys2Proof.Machine

/-! ### Shared operations -/

theorem memWrite_of_lt {s : State} {a : Nat} (h : a < s.cfg.cap) (v : Byte) :
    memWrite s a v = .next { s with buf := s.buf.write a v } := if_pos h

theorem memWrite_of_ge {s : State} {a : Nat} (h : s.cfg.cap ≤ a) (v : Byte) :
    memWrite s a v = .fault .bufferAddress := if_neg (not_lt.2 h)

theorem withByte_some {s : State} {b : Byte} (h : offered s = some b) (k : Byte → State → Result) :
    withByte s k = k b (dropByte s) := by simp [withByte, h]

theorem withByte_none {s : State} (h : offered s = none) (k : Byte → State → Result) :
    withByte s k = .fault .noByteOffered := by simp [withByte, h]

/-- Everything `Append` can do (R80): with no room it is the Overflow event, with room it stores and moves on, past the buffer it stops. -/
theorem append_cases (s : State) (b : Byte) (rest : State → Result) :
    (s.wptr = s.cfg.cap ∧ append s b rest = .next (discardFrame s)) ∨
    (s.wptr < s.cfg.cap ∧
      append s b rest = rest { s with buf := s.buf.write s.wptr b, wptr := s.wptr + 1 }) ∨
    (s.cfg.cap < s.wptr ∧ append s b rest = .fault .bufferAddress) := by
  unfold append
  rcases lt_trichotomy s.wptr s.cfg.cap with h | h | h
  · exact .inr (.inl ⟨h, by rw [if_neg (Nat.ne_of_lt h), memWrite_of_lt h]; rfl⟩)
  · exact .inl ⟨h, if_pos h⟩
  · exact .inr (.inr ⟨h, by rw [if_neg (Nat.ne_of_gt h), memWrite_of_ge h.le]; rfl⟩)

theorem append_of_full {s : State} (h : s.wptr = s.cfg.cap) (b : Byte) (rest : State → Result) :
    append s b rest = .next (discardFrame s) := if_pos h

theorem append_of_room {s : State} (h : s.wptr < s.cfg.cap) (b : Byte) (rest : State → Result) :
    append s b rest = rest { s with buf := s.buf.write s.wptr b, wptr := s.wptr + 1 } := by
  rw [append, if_neg (Nat.ne_of_lt h), memWrite_of_lt h]
  rfl

/-! ### The operations, each where it completes -/

theorem exec_reset (s : State) : exec .reset s = .next (resetBlock s) := rfl

theorem exec_waitSs (s : State) : exec .waitSs s = .next s := rfl

theorem exec_waitSe (s : State) : exec .waitSe s = .next s := rfl

theorem exec_rsvdSt3 (s : State) : exec .rsvdSt3 s = .fault .reservedState := rfl

theorem exec_ssMiss {s : State} {b : Byte} (h : offered s = some b) :
    exec .ssMiss s = .next { dropByte s with sidx := 0 } := by
  show execSsMiss s = _
  rw [execSsMiss, withByte_some h]

theorem exec_ssHit {s : State} {b : Byte} (h : offered s = some b) (hc : s.sidx.toNat < s.cfg.cap) :
    exec .ssHit s = .next { dropByte s with buf := s.buf.write s.sidx.toNat b, sidx := s.sidx + 1 } := by
  show execSsHit s = _
  rw [execSsHit, withByte_some h, memWrite_of_lt (by exact hc)]
  rfl

theorem exec_ssOpen {s : State} {b : Byte} (h : offered s = some b) (hc : 7 < s.cfg.cap) :
    exec .ssOpen s = .next { dropByte s with buf := s.buf.write 7 b, sidx := 8, wptr := 8, st := .se } := by
  show execSsOpen s = _
  rw [execSsOpen, withByte_some h, memWrite_of_lt (by exact hc)]
  rfl

theorem exec_ovfDiscard {s : State} {b : Byte} (h : offered s = some b) :
    exec .ovfDiscard s = .next (discardFrame (dropByte s)) := by
  show execOvfDiscard s = _
  rw [execOvfDiscard, withByte_some h]

theorem exec_seMiss {s : State} {b : Byte} (h : offered s = some b) (hc : s.wptr < s.cfg.cap) :
    exec .seMiss s =
      .next { dropByte s with buf := s.buf.write s.wptr b, wptr := s.wptr + 1, eidx := 0 } := by
  show execSeMiss s = _
  rw [execSeMiss, withByte_some h, append_of_room (by exact hc)]
  rfl

theorem exec_seHit {s : State} {b : Byte} (h : offered s = some b) (hc : s.wptr < s.cfg.cap) :
    exec .seHit s =
      .next { dropByte s with buf := s.buf.write s.wptr b, wptr := s.wptr + 1, eidx := s.eidx + 1 } := by
  show execSeHit s = _
  rw [execSeHit, withByte_some h, append_of_room (by exact hc)]
  rfl

theorem exec_seClose {s : State} {b : Byte} (h : offered s = some b) (hc : s.wptr < s.cfg.cap) :
    exec .seClose s =
      .next { dropByte s with buf := s.buf.write s.wptr b, wptr := s.wptr + 1, eidx := 5 } := by
  show execSeClose s = _
  rw [execSeClose, withByte_some h, append_of_room (by exact hc)]
  rfl

theorem exec_trByte {s : State} {b : Byte} (h : offered s = some b) (hc : s.wptr < s.cfg.cap) :
    exec .trByte s =
      .next { dropByte s with buf := s.buf.write s.wptr b, wptr := s.wptr + 1, tcnt := s.tcnt + 1 } := by
  show execTrByte s = _
  rw [execTrByte, withByte_some h, append_of_room (by exact hc)]
  rfl

theorem exec_trLast {s : State} {b : Byte} (h : offered s = some b) (hc : s.wptr < s.cfg.cap) :
    exec .trLast s =
      .next { dropByte s with buf := s.buf.write s.wptr b, wptr := s.wptr + 1, tcnt := 3, st := .re } := by
  show execTrLast s = _
  rw [execTrLast, withByte_some h, append_of_room (by exact hc)]
  rfl

theorem exec_emit {s : State} (hc : s.wptr ≤ s.cfg.cap) :
    exec .emit s =
      .next (clear { s with
        q1 := (extract s.cfg s.buf s.wptr s.q1 s.q2).1
        q2 := (extract s.cfg s.buf s.wptr s.q1 s.q2).2 }) := if_pos hc

/-- The five operations that append: each is the Overflow event when there is no room (R80). -/
theorem exec_append_of_full {s : State} {b : Byte} (h : offered s = some b) (hc : s.wptr = s.cfg.cap)
    {i : Instr} (hi : i = .seMiss ∨ i = .seHit ∨ i = .seClose ∨ i = .trByte ∨ i = .trLast) :
    exec i s = .next (discardFrame (dropByte s)) := by
  rcases hi with rfl | rfl | rfl | rfl | rfl <;>
    simp only [exec, execSeMiss, execSeHit, execSeClose, execTrByte, execTrLast] <;>
    rw [withByte_some h, append_of_full (by exact hc)]

/-! ### Inversions: everything an operation that goes on can do -/

/-- Two next states are the same outcome when they are the same state, the later one written first. -/
theorem next_eq_iff {s t : State} : (Host.Outcome.next s : Result) = .next t ↔ t = s := by
  simp [eq_comm]

theorem withByte_eq_next {s t : State} {k : Byte → State → Result} :
    withByte s k = .next t ↔ ∃ b, offered s = some b ∧ k b (dropByte s) = .next t := by
  rcases ho : offered s with _ | b
  · simp [withByte_none ho]
  · simp [withByte_some ho]

theorem memWrite_eq_next {s t : State} {a : Nat} {v : Byte} :
    memWrite s a v = .next t ↔ a < s.cfg.cap ∧ t = { s with buf := s.buf.write a v } := by
  by_cases h : a < s.cfg.cap
  · simp [memWrite_of_lt h, h, eq_comm]
  · simp [memWrite_of_ge (not_lt.1 h), h]

theorem append_eq_next {s t : State} {b : Byte} {rest : State → Result} :
    append s b rest = .next t ↔
      (s.wptr = s.cfg.cap ∧ t = discardFrame s) ∨
      (s.wptr < s.cfg.cap ∧
        rest { s with buf := s.buf.write s.wptr b, wptr := s.wptr + 1 } = .next t) := by
  rcases append_cases s b rest with ⟨h, e⟩ | ⟨h, e⟩ | ⟨h, e⟩ <;> rw [e]
  · simp [h, eq_comm]
  · simp [h, Nat.ne_of_lt h]
  · simp [Nat.ne_of_gt h, not_lt.2 h.le]

theorem exec_reset_next {s t : State} : exec .reset s = .next t ↔ t = resetBlock s := by
  simp only [exec, execReset, next_eq_iff]

theorem exec_waitSs_next {s t : State} : exec .waitSs s = .next t ↔ t = s := by
  simp only [exec, execWaitSs, next_eq_iff]

theorem exec_waitSe_next {s t : State} : exec .waitSe s = .next t ↔ t = s := by
  simp only [exec, execWaitSe, next_eq_iff]

theorem exec_rsvdSt3_next {s t : State} : ¬ exec .rsvdSt3 s = .next t := by simp [exec, execRsvdSt3]

theorem exec_ssMiss_next {s t : State} :
    exec .ssMiss s = .next t ↔ ∃ b, offered s = some b ∧ t = { dropByte s with sidx := 0 } := by
  simp only [exec, execSsMiss, withByte_eq_next, next_eq_iff, dropByte]

theorem exec_ssHit_next {s t : State} :
    exec .ssHit s = .next t ↔ ∃ b, offered s = some b ∧ s.sidx.toNat < s.cfg.cap ∧
      t = { dropByte s with buf := s.buf.write s.sidx.toNat b, sidx := s.sidx + 1 } := by
  simp only [exec, execSsHit, withByte_eq_next, andThen_eq_next, memWrite_eq_next, and_assoc, next_eq_iff,
    exists_and_left, exists_eq_left]
  rfl

theorem exec_ssOpen_next {s t : State} :
    exec .ssOpen s = .next t ↔ ∃ b, offered s = some b ∧ 7 < s.cfg.cap ∧
      t = { dropByte s with buf := s.buf.write 7 b, sidx := 8, wptr := 8, st := .se } := by
  simp only [exec, execSsOpen, withByte_eq_next, andThen_eq_next, memWrite_eq_next, and_assoc, next_eq_iff,
    exists_and_left, exists_eq_left]
  rfl

theorem exec_ovfDiscard_next {s t : State} :
    exec .ovfDiscard s = .next t ↔ ∃ b, offered s = some b ∧ t = discardFrame (dropByte s) := by
  simp only [exec, execOvfDiscard, withByte_eq_next, next_eq_iff]

theorem exec_emit_next {s t : State} :
    exec .emit s = .next t ↔ s.wptr ≤ s.cfg.cap ∧ t = clear { s with
      q1 := (extract s.cfg s.buf s.wptr s.q1 s.q2).1
      q2 := (extract s.cfg s.buf s.wptr s.q1 s.q2).2 } := by
  by_cases h : s.wptr ≤ s.cfg.cap
  · simp [exec, execEmit, h, next_eq_iff, -Host.Outcome.next.injEq]
  · simp [exec, execEmit, h]

/-- The state after a byte is appended with room, before the operation's own change (R80). -/
def appended (s : State) (b : Byte) : State :=
  { dropByte s with buf := s.buf.write s.wptr b, wptr := s.wptr + 1 }

theorem exec_seMiss_next {s t : State} :
    exec .seMiss s = .next t ↔ ∃ b, offered s = some b ∧
      ((s.wptr = s.cfg.cap ∧ t = discardFrame (dropByte s)) ∨
       (s.wptr < s.cfg.cap ∧ t = { appended s b with eidx := 0 })) := by
  simp only [exec, execSeMiss, withByte_eq_next, append_eq_next, next_eq_iff]
  rfl

theorem exec_seHit_next {s t : State} :
    exec .seHit s = .next t ↔ ∃ b, offered s = some b ∧
      ((s.wptr = s.cfg.cap ∧ t = discardFrame (dropByte s)) ∨
       (s.wptr < s.cfg.cap ∧ t = { appended s b with eidx := s.eidx + 1 })) := by
  simp only [exec, execSeHit, withByte_eq_next, append_eq_next, next_eq_iff]
  rfl

theorem exec_seClose_next {s t : State} :
    exec .seClose s = .next t ↔ ∃ b, offered s = some b ∧
      ((s.wptr = s.cfg.cap ∧ t = discardFrame (dropByte s)) ∨
       (s.wptr < s.cfg.cap ∧ t = { appended s b with eidx := 5 })) := by
  simp only [exec, execSeClose, withByte_eq_next, append_eq_next, next_eq_iff]
  rfl

theorem exec_trByte_next {s t : State} :
    exec .trByte s = .next t ↔ ∃ b, offered s = some b ∧
      ((s.wptr = s.cfg.cap ∧ t = discardFrame (dropByte s)) ∨
       (s.wptr < s.cfg.cap ∧ t = { appended s b with tcnt := s.tcnt + 1 })) := by
  simp only [exec, execTrByte, withByte_eq_next, append_eq_next, next_eq_iff]
  rfl

theorem exec_trLast_next {s t : State} :
    exec .trLast s = .next t ↔ ∃ b, offered s = some b ∧
      ((s.wptr = s.cfg.cap ∧ t = discardFrame (dropByte s)) ∨
       (s.wptr < s.cfg.cap ∧ t = { appended s b with tcnt := 3, st := .re })) := by
  simp only [exec, execTrLast, withByte_eq_next, append_eq_next, next_eq_iff]
  rfl

/-! ### Steps -/

/-- A step is the selected operation, and then the step passes. -/
theorem step_of_exec {s u : State} {i : Instr} (hs : selected s = i) (h : exec i s = .next u) :
    step s = .next (elapse s u) := by
  rw [step, hs, h]
  rfl

/-- Everything a step that goes on can do (R48, R77). -/
inductive StepCase (s t : State) : Prop
  | reset (op : selected s = .reset) (rst : rstNow s = true) (ht : t = elapse s (resetBlock s))
  | waitSs (op : selected s = .waitSs) (rst : rstNow s = false) (st : s.st = .ss) (none : offered s = none)
      (ht : t = elapse s s)
  | ssMiss (b : Byte) (op : selected s = .ssMiss) (rst : rstNow s = false) (st : s.st = .ss)
      (byte : offered s = some b) (miss : startSig[s.sidx.toNat]? ≠ some b)
      (ht : t = elapse s { dropByte s with sidx := 0 })
  | ssHit (b : Byte) (op : selected s = .ssHit) (rst : rstNow s = false) (st : s.st = .ss)
      (byte : offered s = some b) (hit : startSig[s.sidx.toNat]? = some b) (more : s.sidx ≠ 7)
      (room : s.sidx.toNat < s.cfg.cap)
      (ht : t = elapse s { dropByte s with buf := s.buf.write s.sidx.toNat b, sidx := s.sidx + 1 })
  | ssOpen (b : Byte) (op : selected s = .ssOpen) (rst : rstNow s = false) (st : s.st = .ss)
      (byte : offered s = some b) (hit : startSig[s.sidx.toNat]? = some b) (last : s.sidx = 7)
      (room : 7 < s.cfg.cap)
      (ht : t = elapse s { dropByte s with buf := s.buf.write 7 b, sidx := 8, wptr := 8, st := .se })
  | waitSe (op : selected s = .waitSe) (rst : rstNow s = false) (st : s.st = .se) (none : offered s = none)
      (ht : t = elapse s s)
  | discard (b : Byte) (op : selected s = .ovfDiscard) (rst : rstNow s = false) (st : s.st = .se)
      (byte : offered s = some b) (full : s.wptr = s.cfg.cap)
      (ht : t = elapse s (discardFrame (dropByte s)))
  | seMiss (b : Byte) (op : selected s = .seMiss) (rst : rstNow s = false) (st : s.st = .se)
      (byte : offered s = some b) (room : s.wptr < s.cfg.cap) (open_ : s.eidx ≠ 5)
      (miss : endSig[s.eidx.toNat]? ≠ some b)
      (ht : t = elapse s { dropByte s with buf := s.buf.write s.wptr b, wptr := s.wptr + 1, eidx := 0 })
  | seHit (b : Byte) (op : selected s = .seHit) (rst : rstNow s = false) (st : s.st = .se)
      (byte : offered s = some b) (room : s.wptr < s.cfg.cap) (open_ : s.eidx ≠ 5)
      (hit : endSig[s.eidx.toNat]? = some b) (more : s.eidx ≠ 4)
      (ht : t = elapse s { dropByte s with buf := s.buf.write s.wptr b, wptr := s.wptr + 1, eidx := s.eidx + 1 })
  | seClose (b : Byte) (op : selected s = .seClose) (rst : rstNow s = false) (st : s.st = .se)
      (byte : offered s = some b) (room : s.wptr < s.cfg.cap)
      (hit : endSig[s.eidx.toNat]? = some b) (last : s.eidx = 4)
      (ht : t = elapse s { dropByte s with buf := s.buf.write s.wptr b, wptr := s.wptr + 1, eidx := 5 })
  | trByte (b : Byte) (op : selected s = .trByte) (rst : rstNow s = false) (st : s.st = .se)
      (byte : offered s = some b) (room : s.wptr < s.cfg.cap) (trl : s.eidx = 5) (more : s.tcnt ≠ 2)
      (ht : t = elapse s { dropByte s with buf := s.buf.write s.wptr b, wptr := s.wptr + 1, tcnt := s.tcnt + 1 })
  | trLast (b : Byte) (op : selected s = .trLast) (rst : rstNow s = false) (st : s.st = .se)
      (byte : offered s = some b) (room : s.wptr < s.cfg.cap) (trl : s.eidx = 5) (last : s.tcnt = 2)
      (ht : t = elapse s { dropByte s with
        buf := s.buf.write s.wptr b, wptr := s.wptr + 1, tcnt := 3, st := .re })
  | emit (op : selected s = .emit) (rst : rstNow s = false) (st : s.st = .re) (room : s.wptr ≤ s.cfg.cap)
      (ht : t = elapse s (clear { s with
        q1 := (extract s.cfg s.buf s.wptr s.q1 s.q2).1
        q2 := (extract s.cfg s.buf s.wptr s.q1 s.q2).2 }))

/-! ### The operation selected, read off the state -/

theorem selected_of_rst {s : State} (h : rstNow s = true) : selected s = .reset := by
  simp [selected_eq, opOf, h]

theorem selected_waitSs {s : State} (hr : rstNow s = false) (hs : s.st = .ss) (ho : offered s = none) :
    selected s = .waitSs := by
  simp [selected_eq, opOf, hr, hs, av, ho]

theorem selected_waitSe {s : State} (hr : rstNow s = false) (hs : s.st = .se) (ho : offered s = none) :
    selected s = .waitSe := by
  simp [selected_eq, opOf, hr, hs, av, ho]

theorem selected_emit {s : State} (hr : rstNow s = false) (hs : s.st = .re) : selected s = .emit := by
  simp [selected_eq, opOf, hr, hs]

theorem selected_rsvdSt3 {s : State} (hr : rstNow s = false) (hs : s.st = .reserved) :
    selected s = .rsvdSt3 := by
  simp [selected_eq, opOf, hr, hs]

/-- The operation of a byte taken in SeekingStart (rows 3 to 5 of R48). -/
theorem selected_ss {s : State} {b : Byte} (hr : rstNow s = false) (hs : s.st = .ss) (ho : offered s = some b) :
    selected s = if startSig[s.sidx.toNat]? = some b then (if s.sidx = 7 then .ssOpen else .ssHit)
      else .ssMiss := by
  by_cases hh : startSig[s.sidx.toNat]? = some b <;> by_cases hl : s.sidx = 7 <;>
    simp_all [selected_eq, opOf, av, hit, last]

/-- The operation of a byte taken in SeekingEnd (rows 7 to 12 of R48). -/
theorem selected_se {s : State} {b : Byte} (hr : rstNow s = false) (hs : s.st = .se) (ho : offered s = some b) :
    selected s = if s.wptr = s.cfg.cap then .ovfDiscard
      else if s.eidx = 5 then (if s.tcnt = 2 then .trLast else .trByte)
      else if endSig[s.eidx.toNat]? = some b then (if s.eidx = 4 then .seClose else .seHit)
      else .seMiss := by
  by_cases hf : s.wptr = s.cfg.cap <;> by_cases h5 : s.eidx = 5 <;> by_cases h2 : s.tcnt = 2 <;>
    by_cases hh : endSig[s.eidx.toNat]? = some b <;> by_cases h4 : s.eidx = 4 <;>
    simp_all [selected_eq, opOf, av, hit, last, trl, tlast, full]

/-- A counter that meets the expected byte of a signature is within it. -/
theorem lt_of_getElem?_some {l : List Byte} {i : Nat} {b : Byte} (h : l[i]? = some b) : i < l.length := by
  by_contra hn
  rw [List.getElem?_eq_none (not_lt.1 hn)] at h
  exact absurd h (by simp)

/-- Everything a step that goes on can do. -/
theorem step_cases {s t : State} (h : step s = .next t) : StepCase s t := by
  obtain ⟨u, hu, ht⟩ := andThen_eq_next.1 h
  replace ht : t = elapse s u := by simpa using ht.symm
  subst ht
  rcases hr : rstNow s with _ | _
  · cases hs : s.st with
    | ss =>
      rcases ho : offered s with _ | b
      · have op := selected_waitSs hr hs ho
        rw [op, exec_waitSs] at hu
        cases hu
        exact .waitSs op hr hs ho rfl
      · have op := selected_ss hr hs ho
        by_cases hh : startSig[s.sidx.toNat]? = some b
        · by_cases hl : s.sidx = 7
          · rw [if_pos hh, if_pos hl] at op
            rw [op] at hu
            by_cases hc : 7 < s.cfg.cap
            · rw [exec_ssOpen ho hc] at hu
              cases hu
              exact .ssOpen b op hr hs ho hh hl hc rfl
            · simp [exec, execSsOpen, withByte_some ho, memWrite, hc] at hu
          · rw [if_pos hh, if_neg hl] at op
            rw [op] at hu
            by_cases hc : s.sidx.toNat < s.cfg.cap
            · rw [exec_ssHit ho hc] at hu
              cases hu
              exact .ssHit b op hr hs ho hh hl hc rfl
            · simp [exec, execSsHit, withByte_some ho, memWrite, hc] at hu
        · rw [if_neg hh] at op
          rw [op, exec_ssMiss ho] at hu
          cases hu
          exact .ssMiss b op hr hs ho hh rfl
    | se =>
      rcases ho : offered s with _ | b
      · have op := selected_waitSe hr hs ho
        rw [op, exec_waitSe] at hu
        cases hu
        exact .waitSe op hr hs ho rfl
      · have op := selected_se hr hs ho
        by_cases hf : s.wptr = s.cfg.cap
        · rw [if_pos hf] at op
          rw [op, exec_ovfDiscard ho] at hu
          cases hu
          exact .discard b op hr hs ho hf rfl
        · rw [if_neg hf] at op
          have room : s.wptr < s.cfg.cap := by
            by_contra hn
            have hge : ¬ s.wptr < s.cfg.cap := hn
            have hstop : ∀ k, append (dropByte s) b k = .fault .bufferAddress := fun k => by
              rw [append, if_neg (by exact hf), memWrite_of_ge (by exact not_lt.1 hge)]
              rfl
            rw [op] at hu
            split at hu
            · split at hu <;> simp [exec, execTrLast, execTrByte, withByte_some ho, hstop] at hu
            · split at hu
              · split at hu <;> simp [exec, execSeClose, execSeHit, withByte_some ho, hstop] at hu
              · simp [exec, execSeMiss, withByte_some ho, hstop] at hu
          by_cases h5 : s.eidx = 5
          · rw [if_pos h5] at op
            by_cases h2 : s.tcnt = 2
            · rw [if_pos h2] at op
              rw [op, exec_trLast ho room] at hu
              cases hu
              exact .trLast b op hr hs ho room h5 h2 rfl
            · rw [if_neg h2] at op
              rw [op, exec_trByte ho room] at hu
              cases hu
              exact .trByte b op hr hs ho room h5 h2 rfl
          · rw [if_neg h5] at op
            by_cases hh : endSig[s.eidx.toNat]? = some b
            · rw [if_pos hh] at op
              by_cases h4 : s.eidx = 4
              · rw [if_pos h4] at op
                rw [op, exec_seClose ho room] at hu
                cases hu
                exact .seClose b op hr hs ho room hh h4 rfl
              · rw [if_neg h4] at op
                rw [op, exec_seHit ho room] at hu
                cases hu
                exact .seHit b op hr hs ho room h5 hh h4 rfl
            · rw [if_neg hh] at op
              rw [op, exec_seMiss ho room] at hu
              cases hu
              exact .seMiss b op hr hs ho room h5 hh rfl
    | re =>
      have op := selected_emit hr hs
      rw [op] at hu
      by_cases hc : s.wptr ≤ s.cfg.cap
      · rw [exec_emit hc] at hu
        cases hu
        exact .emit op hr hs hc rfl
      · simp [exec, execEmit, hc] at hu
    | reserved =>
      rw [selected_rsvdSt3 hr hs, exec_rsvdSt3] at hu
      exact absurd hu (by simp)
  · have op := selected_of_rst hr
    rw [op, exec_reset] at hu
    cases hu
    exact .reset op hr rfl

end Sys2Proof.Machine
end

