-- ==== Sys2Proof/Laws/Run.lean ====
section
/-! SUPPORT. What the byte steps and the EMIT step of R127 do, and runs taken apart. Every such step leaves the inputs empty. -/

namespace Sys2Proof.Machine

/-- A byte step that misses in SeekingStart. -/
theorem byteStep_ssMiss {s : State} {b : Byte} (hs : s.st = .ss) (hm : startSig[s.sidx.toNat]? ≠ some b) :
    byteStep s b = .next { s with sidx := 0, rstIn := [], src := [] } := by
  have op := selected_ss (s := offerByte s b) rfl hs rfl
  rw [if_neg (by exact hm)] at op
  exact step_of_exec op (exec_ssMiss rfl)

/-- A byte step that matches in SeekingStart, before the last position. -/
theorem byteStep_ssHit {s : State} {b : Byte} (hs : s.st = .ss) (hm : startSig[s.sidx.toNat]? = some b)
    (h7 : s.sidx ≠ 7) (hc : s.sidx.toNat < s.cfg.cap) :
    byteStep s b = .next { s with
      buf := s.buf.write s.sidx.toNat b, sidx := s.sidx + 1, rstIn := [], src := [] } := by
  have op := selected_ss (s := offerByte s b) rfl hs rfl
  rw [if_pos (by exact hm), if_neg (by exact h7)] at op
  exact step_of_exec op (exec_ssHit rfl hc)

/-- The byte step that completes the start signature. -/
theorem byteStep_ssOpen {s : State} (hs : s.st = .ss) (h7 : s.sidx = 7) (hc : 7 < s.cfg.cap) :
    byteStep s 0x01 = .next { s with
      buf := s.buf.write 7 0x01, sidx := 8, wptr := 8, st := .se, rstIn := [], src := [] } := by
  have op := selected_ss (s := offerByte s 0x01) rfl hs rfl
  rw [if_pos (by show startSig[s.sidx.toNat]? = _; rw [h7]; rfl), if_pos (by exact h7)] at op
  exact step_of_exec op (exec_ssOpen rfl hc)

/-- A byte step that finds the buffer full. -/
theorem byteStep_discard {s : State} {b : Byte} (hs : s.st = .se) (hf : s.wptr = s.cfg.cap) :
    byteStep s b = .next { discardFrame s with rstIn := [], src := [] } := by
  have op := selected_se (s := offerByte s b) rfl hs rfl
  rw [if_pos (by exact hf)] at op
  exact step_of_exec op (exec_ovfDiscard rfl)

/-- A byte step that misses in SeekingEnd. -/
theorem byteStep_seMiss {s : State} {b : Byte} (hs : s.st = .se) (hw : s.wptr < s.cfg.cap) (h5 : s.eidx ≠ 5)
    (hm : endSig[s.eidx.toNat]? ≠ some b) :
    byteStep s b = .next { s with
      buf := s.buf.write s.wptr b, wptr := s.wptr + 1, eidx := 0, rstIn := [], src := [] } := by
  have op := selected_se (s := offerByte s b) rfl hs rfl
  rw [if_neg (by exact Nat.ne_of_lt hw), if_neg (by exact h5), if_neg (by exact hm)] at op
  exact step_of_exec op (exec_seMiss rfl hw)

/-- A byte step that matches in SeekingEnd, before the last position. -/
theorem byteStep_seHit {s : State} {b : Byte} (hs : s.st = .se) (hw : s.wptr < s.cfg.cap)
    (hm : endSig[s.eidx.toNat]? = some b) (h4 : s.eidx ≠ 4) :
    byteStep s b = .next { s with
      buf := s.buf.write s.wptr b, wptr := s.wptr + 1, eidx := s.eidx + 1, rstIn := [], src := [] } := by
  have h5 : s.eidx ≠ 5 := by
    intro e
    rw [e] at hm
    exact absurd hm (by simp [endSig])
  have op := selected_se (s := offerByte s b) rfl hs rfl
  rw [if_neg (by exact Nat.ne_of_lt hw), if_neg (by exact h5), if_pos (by exact hm), if_neg (by exact h4)] at op
  exact step_of_exec op (exec_seHit rfl hw)

/-- The byte step that completes the end signature. -/
theorem byteStep_seClose {s : State} (hs : s.st = .se) (hw : s.wptr < s.cfg.cap) (h4 : s.eidx = 4) :
    byteStep s 0x1A = .next { s with
      buf := s.buf.write s.wptr 0x1A, wptr := s.wptr + 1, eidx := 5, rstIn := [], src := [] } := by
  have op := selected_se (s := offerByte s 0x1A) rfl hs rfl
  rw [if_neg (by exact Nat.ne_of_lt hw), if_neg (by show ¬s.eidx = 5; rw [h4]; decide),
    if_pos (by show endSig[s.eidx.toNat]? = _; rw [h4]; rfl), if_pos (by exact h4)] at op
  exact step_of_exec op (exec_seClose rfl hw)

/-- A byte step of the trailer phase, before its last byte. -/
theorem byteStep_trByte {s : State} {b : Byte} (hs : s.st = .se) (hw : s.wptr < s.cfg.cap) (h5 : s.eidx = 5)
    (h2 : s.tcnt ≠ 2) :
    byteStep s b = .next { s with
      buf := s.buf.write s.wptr b, wptr := s.wptr + 1, tcnt := s.tcnt + 1, rstIn := [], src := [] } := by
  have op := selected_se (s := offerByte s b) rfl hs rfl
  rw [if_neg (by exact Nat.ne_of_lt hw), if_pos (by exact h5), if_neg (by exact h2)] at op
  exact step_of_exec op (exec_trByte rfl hw)

/-- The byte step that completes the frame. -/
theorem byteStep_trLast {s : State} {b : Byte} (hs : s.st = .se) (hw : s.wptr < s.cfg.cap) (h5 : s.eidx = 5)
    (h2 : s.tcnt = 2) :
    byteStep s b = .next { s with
      buf := s.buf.write s.wptr b, wptr := s.wptr + 1, tcnt := 3, st := .re, rstIn := [], src := [] } := by
  have op := selected_se (s := offerByte s b) rfl hs rfl
  rw [if_neg (by exact Nat.ne_of_lt hw), if_pos (by exact h5), if_pos (by exact h2)] at op
  exact step_of_exec op (exec_trLast rfl hw)

/-- The EMIT step of a completed frame. -/
theorem emitStep_eq {s : State} (hs : s.st = .re) (hw : s.wptr ≤ s.cfg.cap) :
    emitStep s = .next { clear { s with
        q1 := (extract s.cfg s.buf s.wptr s.q1 s.q2).1
        q2 := (extract s.cfg s.buf s.wptr s.q1 s.q2).2 } with rstIn := [], src := [] } :=
  step_of_exec (selected_emit (s := offerNone s) rfl hs) (exec_emit hw)

@[simp] theorem runHold_nil (s : State) : runHold s [] = .next s := rfl

/-- A run outside ReadyToEmit begins with the byte's own step. -/
theorem runHold_cons_of_ne {s : State} (h : s.st ≠ .re) (b : Byte) (t : List Byte) :
    runHold s (b :: t) = andThen (byteStep s b) (fun u => runHold u t) := by
  rw [runHold, if_neg h]

/-- A run from a completed frame begins with the EMIT step. -/
theorem runHold_cons_of_re {s : State} (h : s.st = .re) (b : Byte) (t : List Byte) :
    runHold s (b :: t) = andThen (emitStep s) (fun e => andThen (byteStep e b) (fun u => runHold u t)) := by
  rw [runHold, if_pos h]

/-- A run over two stretches is the two runs in turn. -/
theorem runHold_append (s : State) (l k : List Byte) :
    runHold s (l ++ k) = andThen (runHold s l) (fun u => runHold u k) := by
  induction l generalizing s with
  | nil => rfl
  | cons b l ih =>
    by_cases h : s.st = .re
    · rw [List.cons_append, runHold_cons_of_re h, runHold_cons_of_re h]
      cases emitStep s with
      | next e => cases h2 : byteStep e b <;> simp [h2, ih]
      | fault f => rfl
      | refused r => rfl
    · rw [List.cons_append, runHold_cons_of_ne h, runHold_cons_of_ne h]
      cases h2 : byteStep s b <;> simp [ih]

end Sys2Proof.Machine
end

