-- ==== Sys2Proof/Laws/PerInstr.lean ====
section
/-! SUPPORT. One lemma for each operation of the table: its row is sound as the operation table of R48 writes it. -/

namespace Sys2Proof.Laws.Encoding

/-- The row of an operation: it stands in the table once, its match lies within its mask, and the selector the encoder gives matches it. -/
def Statement (i : Instr) : Prop :=
  allOps.count i = 1 ∧ rowMatch i &&& ~~~rowMask i = 0 ∧ rowHits (encode i) i = true

theorem reset : Statement .reset := by unfold Statement; decide
theorem waitSs : Statement .waitSs := by unfold Statement; decide
theorem ssMiss : Statement .ssMiss := by unfold Statement; decide
theorem ssHit : Statement .ssHit := by unfold Statement; decide
theorem ssOpen : Statement .ssOpen := by unfold Statement; decide
theorem waitSe : Statement .waitSe := by unfold Statement; decide
theorem ovfDiscard : Statement .ovfDiscard := by unfold Statement; decide
theorem seMiss : Statement .seMiss := by unfold Statement; decide
theorem seHit : Statement .seHit := by unfold Statement; decide
theorem seClose : Statement .seClose := by unfold Statement; decide
theorem trByte : Statement .trByte := by unfold Statement; decide
theorem trLast : Statement .trLast := by unfold Statement; decide
theorem emit : Statement .emit := by unfold Statement; decide
theorem rsvdSt3 : Statement .rsvdSt3 := by unfold Statement; decide

end Sys2Proof.Laws.Encoding
end

