-- ==== Sys2Proof/Tests/Slice0.lean ====
section
/-! SUPPORT. Tests. The expected results are those of spec/95_test_vectors.md (the vector's id is named) or are written out from the
tables of spec/30_encoding.md; each witness theorem meets the hypotheses of the statement it names. -/

namespace Sys2Proof.Tests

open Sys2Proof.Machine

/-! ### Helpers -/

/-- A state of a part with TESTCFG, the readings unset, the buffer empty, and one byte or nothing on offer. -/
def mk (st : ScanState) (sidx : BitVec 4) (eidx : BitVec 3) (tcnt : BitVec 2) (wptr : Nat) (input : List (Option Byte)) : State :=
  { State.reset with st := st, sidx := sidx, eidx := eidx, tcnt := tcnt, wptr := wptr, src := input }

/-- A buffer that holds exactly these bytes from address 0. -/
def loaded (bytes : List Byte) : Memory := bytes.zipIdx.foldl (fun m p => m.write p.2 p.1) []

/-- TESTCFG with `CAP` = 16. -/
def cfg16 : Config := { Config.test with cap := 16 }

theorem of_nextState {r : Result} {t : State} (h : nextState r = some t) : r = .next t := by
  cases r <;> simp_all [nextState]

theorem next_of_isSome {r : Result} (h : (nextState r).isSome = true) : ∃ t, r = .next t := by
  cases r <;> simp_all [nextState]

theorem read_above {m : Memory} {n : Nat} (h : ∀ c ∈ m, c.1 < n) {a : Nat} (ha : n ≤ a) : m.read a = 0 := by
  induction m with
  | nil => rfl
  | cons c m ih =>
    have := h c (by simp)
    rw [Memory.read_cons, if_neg (by omega), ih fun d hd => h d (by simp [hd])]

theorem clear_above_of {s : State} (h : ∀ c ∈ s.buf, c.1 < max 8 s.wptr) (a : Nat) (h8 : 8 ≤ a) (hw : s.wptr ≤ a) :
    s.buf.read a = 0 := read_above h (by omega)

theorem endNotReached_of {s : State} {bytes : List Byte}
    (h : ∀ n, n ≤ bytes.length → (nextState (runHold s (bytes.take n))).all (fun u => u.eidx != 5) = true) :
    EndNotReached s bytes := by
  intro p u hp hu
  have := h p.length hp.length_le
  rw [← List.prefix_iff_eq_take.1 hp, hu] at this
  simpa [nextState] using this

/-! ### Well-formedness: an ill-formed term for each check -/

theorem test_wf_accepts_test_configuration : Config.test.wf = true := by decide
theorem test_wf_refuses_small_capacity : ({ Config.test with cap := 15 } : Config).wf = false := by decide
theorem test_wf_refuses_short_signature1 :
    ({ Config.test with fsig1Lead := List.replicate 13 0x77 } : Config).wf = false := by decide
theorem test_wf_refuses_long_signature2 :
    ({ Config.test with fsig2Lead := List.replicate 11 0x77 } : Config).wf = false := by decide
theorem test_wf_refuses_word_without_selector : selWordOk 512 = false ∧ selWordOk 511 = true := by decide
theorem test_cursor_width : ({ Config.test with cap := 63 } : Config).wptrWidth = 6 ∧ Config.test.wptrWidth = 7 := by
  decide

/-! ### Decoding: a selector of every row of R48, its free bits not all 0 -/

theorem test_decode_reset : decodeTableWord 16 0b101110000 = some .reset := by decide
theorem test_decode_waitSs : decodeTableWord 16 0b000001000 = some .waitSs := by decide
theorem test_decode_ssMiss : decodeTableWord 16 0b000101000 = some .ssMiss := by decide
theorem test_decode_ssHit : decodeTableWord 16 0b000110001 = some .ssHit := by decide
theorem test_decode_ssOpen : decodeTableWord 16 0b000111100 = some .ssOpen := by decide
theorem test_decode_waitSe : decodeTableWord 16 0b001000110 = some .waitSe := by decide
theorem test_decode_ovfDiscard : decodeTableWord 16 0b001111001 = some .ovfDiscard := by decide
theorem test_decode_seMiss : decodeTableWord 16 0b001101000 = some .seMiss := by decide
theorem test_decode_seHit : decodeTableWord 16 0b001110010 = some .seHit := by decide
theorem test_decode_seClose : decodeTableWord 16 0b001111010 = some .seClose := by decide
theorem test_decode_trByte : decodeTableWord 16 0b001111100 = some .trByte := by decide
theorem test_decode_trLast : decodeTableWord 16 0b001101110 = some .trLast := by decide
theorem test_decode_emit : decodeTableWord 16 0b010100000 = some .emit := by decide
theorem test_decode_rsvdSt3 : decodeTableWord 16 0b011000001 = some .rsvdSt3 := by decide
theorem test_decode_refuses_a_tenth_bit : decodeTableWord 16 0b1000000000 = none := by decide

/-- The row counts of 95_test_vectors.md section 6. -/
theorem test_row_counts :
    allOps.map (fun i => (List.range 512).countP (fun w => decodeSel (BitVec.ofNat 9 w) == i)) =
      [256, 32, 16, 8, 8, 32, 16, 4, 2, 2, 4, 4, 64, 64] := by decide +kernel

/-- A placed selector of every row is the operation of the next step (log 8). -/
theorem test_placed_rows :
    allOps.map (fun i => selected (State.reset.withFetchWord 16 (encode i).toNat)) = allOps := by decide

/-! ### Single steps (95_test_vectors.md sections 3, 4 and 6) -/

/-- T3. -/
theorem test_T3 : selector (mk .ss 7 0 0 0 []) = 0x008 ∧ nextState (step (mk .ss 7 0 0 0 [])) = some (mk .ss 7 0 0 0 []) := by
  decide

/-- T11: a fifth `1B` is dropped and is not tried again. -/
theorem test_T11 : selector (mk .ss 4 0 0 0 [some 0x1B]) = 0x020 ∧
    nextState (step (mk .ss 4 0 0 0 [some 0x1B])) = some (mk .ss 0 0 0 0 []) := by decide

/-- T9. -/
theorem test_T9 : selector (mk .ss 7 0 0 0 [some 0x1B]) = 0x028 ∧
    nextState (step (mk .ss 7 0 0 0 [some 0x1B])) = some (mk .ss 0 0 0 0 []) := by decide

/-- T4. -/
theorem test_T4 : selector (mk .ss 0 0 0 0 [some 0x1B]) = 0x030 ∧
    nextState (step (mk .ss 0 0 0 0 [some 0x1B])) = some { mk .ss 1 0 0 0 [] with buf := [(0, 0x1B)] } := by decide

/-- T7. -/
theorem test_T7 : selector (mk .ss 6 0 0 0 [some 0x01]) = 0x030 ∧
    nextState (step (mk .ss 6 0 0 0 [some 0x01])) = some { mk .ss 7 0 0 0 [] with buf := [(6, 0x01)] } := by decide

/-- T8. -/
theorem test_T8 : selector (mk .ss 7 0 0 0 [some 0x01]) = 0x038 ∧
    nextState (step (mk .ss 7 0 0 0 [some 0x01])) = some { mk .se 8 0 0 8 [] with buf := [(7, 0x01)] } := by decide

/-- T24. -/
theorem test_T24 : selector (mk .se 8 5 2 24 []) = 0x046 ∧
    nextState (step (mk .se 8 5 2 24 [])) = some (mk .se 8 5 2 24 []) := by decide

/-- B10: a full buffer with nothing on offer is no overflow. -/
theorem test_B10 : selector (mk .se 8 0 0 64 []) = 0x041 ∧
    nextState (step (mk .se 8 0 0 64 [])) = some (mk .se 8 0 0 64 []) := by decide

/-- T14. -/
theorem test_T14 : selector (mk .se 8 0 0 8 [some 0x76]) = 0x060 ∧
    nextState (step (mk .se 8 0 0 8 [some 0x76])) = some { mk .se 8 0 0 9 [] with buf := [(8, 0x76)] } := by decide

/-- T18: the counter becomes 0, not 1. -/
theorem test_T18 : selector (mk .se 8 4 0 21 [some 0x1B]) = 0x068 ∧
    nextState (step (mk .se 8 4 0 21 [some 0x1B])) = some { mk .se 8 0 0 22 [] with buf := [(21, 0x1B)] } := by decide

/-- T15. -/
theorem test_T15 : selector (mk .se 8 0 0 8 [some 0x1B]) = 0x070 ∧
    nextState (step (mk .se 8 0 0 8 [some 0x1B])) = some { mk .se 8 1 0 9 [] with buf := [(8, 0x1B)] } := by decide

/-- T16. -/
theorem test_T16 : selector (mk .se 8 3 0 20 [some 0x1B]) = 0x070 ∧
    nextState (step (mk .se 8 3 0 20 [some 0x1B])) = some { mk .se 8 4 0 21 [] with buf := [(20, 0x1B)] } := by decide

/-- T17. -/
theorem test_T17 : selector (mk .se 8 4 0 21 [some 0x1A]) = 0x078 ∧
    nextState (step (mk .se 8 4 0 21 [some 0x1A])) = some { mk .se 8 5 0 22 [] with buf := [(21, 0x1A)] } := by decide

/-- T22: a trailer byte `1B` starts no match. -/
theorem test_T22 : selector (mk .se 8 5 0 22 [some 0x1B]) = 0x064 ∧
    nextState (step (mk .se 8 5 0 22 [some 0x1B])) = some { mk .se 8 5 1 23 [] with buf := [(22, 0x1B)] } := by decide

/-- T23. -/
theorem test_T23 : selector (mk .se 8 5 1 23 [some 0x1A]) = 0x064 ∧
    nextState (step (mk .se 8 5 1 23 [some 0x1A])) = some { mk .se 8 5 2 24 [] with buf := [(23, 0x1A)] } := by decide

/-- T25. -/
theorem test_T25 : selector (mk .se 8 5 2 24 [some 0xFF]) = 0x066 ∧
    nextState (step (mk .se 8 5 2 24 [some 0xFF])) = some { mk .re 8 5 3 25 [] with buf := [(24, 0xFF)] } := by decide

/-- R75, its corner case: the last byte of a frame of exactly `CAP` bytes. -/
theorem test_trLast_fills_the_buffer :
    (nextState (step (mk .se 8 5 2 63 [some 0x07]))).map (fun t => (t.st, t.wptr, t.buf)) =
      some (.re, 64, [(63, 0x07)]) := by decide

/-- T27: the byte on offer is not taken. -/
theorem test_T27 : selector (mk .re 8 5 3 25 [some 0x1B]) = 0x0A0 ∧
    nextState (step { mk .re 8 5 3 25 [some 0x1B] with buf := [(24, 0xFF)] }) = some (mk .ss 0 0 0 0 [some 0x1B]) := by
  decide

/-- P2: the EMIT of the frame of the document's example. -/
theorem test_P2_emit :
    (nextState (step { mk .re 8 5 3 44 [] with
      buf := loaded (frame ([0x76] ++ field1 Config.test 100000 ++ [0x01]) 0x00 0x12 0x34) })).map
        (fun t => (t.st, t.wptr, t.buf, t.q1, t.q2)) = some (.ss, 0, [], 100000, unsetReading) := by decide

/-- B5: the full buffer wins over the end of the end signature. -/
theorem test_B5 : selector { mk .se 8 4 0 16 [some 0x1A] with cfg := cfg16 } = 0x079 ∧
    nextState (step { mk .se 8 4 0 16 [some 0x1A] with cfg := cfg16 }) =
      some { mk .ss 0 0 0 0 [] with cfg := cfg16, ovfCount := 1 } := by decide

/-- B9: saturation. -/
theorem test_B9 : (nextState (step { mk .se 8 0 0 64 [some 0x00] with ovfCount := 0xFFFFFFFF })).map State.ovfCount =
    some 0xFFFFFFFF := by decide

/-- Z1: the byte stays on offer. -/
theorem test_Z1 :
    selector { mk .se 8 2 0 30 [some 0x1B] with q1 := 5, q2 := 6, ovfCount := 3, rstIn := [true] } = 0x170 ∧
    nextState (step { mk .se 8 2 0 30 [some 0x1B] with q1 := 5, q2 := 6, ovfCount := 3, rstIn := [true] }) =
      some (mk .ss 0 0 0 0 [some 0x1B]) := by decide

/-- Z3: RESET and not OVF.DISCARD. -/
theorem test_Z3 :
    selector { mk .se 8 0 0 64 [some 0x00] with q1 := 5, q2 := 6, ovfCount := 7, rstIn := [true] } = 0x161 ∧
    nextState (step { mk .se 8 0 0 64 [some 0x00] with q1 := 5, q2 := 6, ovfCount := 7, rstIn := [true] }) =
      some (mk .ss 0 0 0 0 [some 0x00]) := by decide

/-- R51: stuck with `rst` low, left by RESET. -/
theorem test_reserved : step (mk .reserved 0 0 0 0 []) = .fault .reservedState ∧
    nextState (step { mk .reserved 3 2 1 9 [] with rstIn := [true] }) = some State.reset := by
  exact ⟨rfl, by decide⟩

/-! ### The Register Extractor (95_test_vectors.md section 5) -/

/-- X1, X2: the whole field, and the field without its last byte. -/
theorem test_X1_X2 :
    extract Config.test (loaded (field1 Config.test 7)) 26 unsetReading unsetReading = (7, unsetReading) ∧
    extract Config.test (loaded ((field1 Config.test 7).take 25)) 25 unsetReading unsetReading =
      (unsetReading, unsetReading) := by decide

/-- X3: an odd offset. -/
theorem test_X3 : extract Config.test (loaded ([0xEE] ++ field1 Config.test 7)) 27 unsetReading unsetReading =
    (7, unsetReading) := by decide

/-- X4, X4b. -/
theorem test_X4 :
    extract Config.test (loaded (field2 Config.test 9)) 22 unsetReading unsetReading = (unsetReading, 9) ∧
    extract Config.test (loaded ((field2 Config.test 9).take 21)) 21 unsetReading unsetReading =
      (unsetReading, unsetReading) := by decide

/-- X5b: trailer bytes become part of the value. -/
theorem test_X5b : (extract Config.test (loaded (frame (fsig1 Config.test) 0xFF 0xFF 0xFF)) 34 unsetReading unsetReading).1 =
    0x1B1B1B1B1AFFFFFF := by decide

/-- X7. -/
theorem test_X7 : extract Config.test (loaded (field2 Config.test 3 ++ field1 Config.test 4)) 48 unsetReading unsetReading =
    (4, 3) := by decide

/-- X8: the highest offset wins. -/
theorem test_X8 : (extract Config.test (loaded (field1 Config.test 1 ++ field1 Config.test 2 ++ field1 Config.test 3)) 78
    unsetReading unsetReading).1 = 3 := by decide

/-- X11: the value is what follows, whatever it is. -/
theorem test_X11 : extract Config.test (loaded (fsig1 Config.test ++ field2 Config.test 5)) 40 unsetReading unsetReading =
    (0x77070100020800FF, 5) := by decide

/-- The value table: the byte order of a wrong reading, and the sign. -/
theorem test_values :
    signed64 0xA086010000000000 = -6879810281250226176 ∧ signed64 0xFFFFFFFFFFFFFFFF = -1 ∧
    signed64 0x8000000000000000 = -9223372036854775808 ∧ signed64 0x7FFFFFFFFFFFFFFF = 9223372036854775807 := by decide

/-! ### Stimulus, trace, ports -/

/-- S6. -/
theorem test_S6 : trace [.byte 0x1B, .byte 0x1B, .byte 0x01] State.reset = [.ssHit, .ssHit, .ssMiss] ∧
    (nextState (applyStimulus [.byte 0x1B, .byte 0x1B, .byte 0x01] State.reset)).map (fun t => (t.sidx, t.buf)) =
      some (0, [(0, 0x1B), (1, 0x1B)]) := by decide

/-- A byte token in RE is two steps (R54). -/
theorem test_token_in_re : tokenOps (.byte 0x1B) (mk .re 8 5 3 25 []) = [.emit, .ssHit] ∧
    (nextState (applyToken (.byte 0x1B) (mk .re 8 5 3 25 []))).map State.sidx = some 1 := by decide

/-- R25, R26 in RE. -/
theorem test_ports : outputs { mk .re 8 5 3 25 [some 0x1B] with q1 := 5, ovfCount := 3 } =
    { take := false, st := 0b10, sidx := 8, eidx := 5, tcnt := 3, frameLen := 25, inReady := false, frameReady := true,
      ovfEvent := false, ovfCount := 3, q1 := 5, q2 := unsetReading } ∧
    frameByte { mk .re 8 5 3 25 [] with buf := [(24, 0xFF)] } 24 = 0xFF ∧
    frameByte { mk .re 8 5 3 24 [] with buf := [(24, 0xFF)] } 24 = 0x00 := by decide

/-! ### States that keep the invariants -/

/-- SS after three bytes of the start signature. -/
def ssState : State := { mk .ss 3 0 0 0 [] with buf := loaded (startSig.take 3) }

/-- SE in the trailer phase, two trailer bytes taken, one more on offer. -/
def seState : State := { mk .se 8 5 2 15 [some 0xB2] with buf := loaded ((frame [] 0x00 0xA1 0xB2).take 15) }

/-- SE with a full buffer, `CAP` = 16, and a byte on offer. -/
def fullState : State :=
  { mk .se 8 0 0 16 [some 0xAA] with cfg := cfg16, buf := loaded (startSig ++ List.replicate 8 0x99) }

/-- RE with the frame of X5: field signature 1 ends the payload. -/
def reState : State := { mk .re 8 5 3 34 [some 0x1B] with buf := loaded (frame (fsig1 Config.test) 0x00 0x00 0x00) }

/-- RE with a frame whose payload is field signature 2. -/
def reState2 : State := { mk .re 8 5 3 30 [] with buf := loaded (frame (fsig2 Config.test) 0xFF 0xFF 0xFF) }

theorem inv_reset : BlockInv State.reset where
  cfg_ok := by decide
  buf_ok := Memory.ok_nil _
  st_legal := by decide
  ss _ := ⟨by decide, rfl, rfl, rfl, by decide⟩
  se h := nomatch h
  re h := nomatch h
  cursor := by decide
  clear_above _ _ _ := rfl

theorem inv_ss : BlockInv ssState where
  cfg_ok := by decide
  buf_ok := ⟨by decide, by decide⟩
  st_legal := by decide
  ss _ := ⟨by decide, rfl, rfl, rfl, by decide⟩
  se h := nomatch h
  re h := nomatch h
  cursor := by decide
  clear_above := clear_above_of (by decide)

theorem inv_se : BlockInv seState where
  cfg_ok := by decide
  buf_ok := ⟨by decide, by decide⟩
  st_legal := by decide
  ss h := nomatch h
  se _ := ⟨rfl, by decide, by decide, by decide, by decide, by decide, by decide, by decide, by decide⟩
  re h := nomatch h
  cursor := by decide
  clear_above := clear_above_of (by decide)

theorem inv_full : BlockInv fullState where
  cfg_ok := by decide
  buf_ok := ⟨by decide, by decide⟩
  st_legal := by decide
  ss h := nomatch h
  se _ := ⟨rfl, by decide, by decide, by decide, by decide, by decide, by decide, by decide, by decide⟩
  re h := nomatch h
  cursor := by decide
  clear_above := clear_above_of (by decide)

theorem inv_re : BlockInv reState where
  cfg_ok := by decide
  buf_ok := ⟨by decide, by decide⟩
  st_legal := by decide
  ss h := nomatch h
  se h := nomatch h
  re _ := ⟨rfl, rfl, rfl, by decide, by decide, by decide, by decide⟩
  cursor := by decide
  clear_above := clear_above_of (by decide)

theorem inv_re2 : BlockInv reState2 where
  cfg_ok := by decide
  buf_ok := ⟨by decide, by decide⟩
  st_legal := by decide
  ss h := nomatch h
  se h := nomatch h
  re _ := ⟨rfl, rfl, rfl, by decide, by decide, by decide, by decide⟩
  cursor := by decide
  clear_above := clear_above_of (by decide)

/-! ### Witnesses: concrete states and operands that meet the hypotheses of the statements -/

theorem witness_WaitSsChangesNothing : Running (mk .ss 7 0 0 0 [none]) .ss ∧ offered (mk .ss 7 0 0 0 [none]) = none :=
  ⟨⟨rfl, rfl⟩, rfl⟩

theorem witness_SsMissDropsByteAndRestarts : Running (mk .ss 4 0 0 0 [some 0x1B]) .ss ∧
    offered (mk .ss 4 0 0 0 [some 0x1B]) = some 0x1B ∧ startSig[(mk .ss 4 0 0 0 [some 0x1B]).sidx.toNat]? ≠ some 0x1B :=
  ⟨⟨rfl, rfl⟩, rfl, by decide⟩

theorem witness_SsHitStoresAtStartIndex :
    ∃ s : State, s.cfg.wf = true ∧ Running s .ss ∧ offered s = some 0x01 ∧ startSig[s.sidx.toNat]? = some 0x01 ∧ s.sidx = 6 ∧
      s.sidx ≠ 7 ∧ s.buf.wf = true ∧ readBytes s.buf 0 s.sidx.toNat = startSig.take s.sidx.toNat :=
  ⟨{ mk .ss 6 0 0 0 [some 0x01] with buf := loaded (startSig.take 6) }, by decide, ⟨rfl, rfl⟩, rfl, by decide, rfl, by decide,
    by decide, by decide⟩

theorem witness_SsOpenOpensFrame :
    ∃ s : State, s.cfg.wf = true ∧ Running s .ss ∧ offered s = some 0x01 ∧ s.sidx = 7 ∧ s.buf.wf = true ∧
      readBytes s.buf 0 7 = startSig.take 7 :=
  ⟨{ mk .ss 7 0 0 0 [some 0x01] with buf := loaded (startSig.take 7) }, by decide, ⟨rfl, rfl⟩, rfl, rfl, by decide,
    by decide⟩

/-- In the trailer phase, and with a full buffer. -/
theorem witness_WaitSeChangesNothing :
    (Running (mk .se 8 5 2 24 []) .se ∧ offered (mk .se 8 5 2 24 []) = none) ∧
    (Running (mk .se 8 0 0 64 []) .se ∧ offered (mk .se 8 0 0 64 []) = none) := ⟨⟨⟨rfl, rfl⟩, rfl⟩, ⟨rfl, rfl⟩, rfl⟩

theorem witness_SeMissAppendsAndRestartsEnd : ∃ s : State, Running s .se ∧ offered s = some 0x1B ∧ s.wptr + 1 = s.cfg.cap ∧
    s.wptr < s.cfg.cap ∧ s.eidx.toNat = 4 ∧ s.eidx.toNat < 5 ∧ endSig[s.eidx.toNat]? ≠ some 0x1B :=
  ⟨mk .se 8 4 0 63 [some 0x1B], ⟨rfl, rfl⟩, rfl, by decide⟩

theorem witness_SeHitAppendsAndCounts : ∃ s : State, Running s .se ∧ offered s = some 0x1B ∧ s.wptr < s.cfg.cap ∧
    s.eidx.toNat = 3 ∧ s.eidx.toNat < 4 ∧ endSig[s.eidx.toNat]? = some 0x1B :=
  ⟨mk .se 8 3 0 63 [some 0x1B], ⟨rfl, rfl⟩, rfl, by decide⟩

/-- The byte fills the buffer, so that the clause on the next byte applies as well. -/
theorem witness_SeCloseBeginsTrailer : ∃ s t : State, Running s .se ∧ offered s = some 0x1A ∧ s.wptr < s.cfg.cap ∧ s.eidx = 4 ∧
    exec .seClose s = .next t ∧ t.wptr = t.cfg.cap :=
  ⟨mk .se 8 4 0 63 [some 0x1A], { mk .se 8 5 0 64 [] with buf := [(63, 0x1A)] }, ⟨rfl, rfl⟩, rfl, by decide, rfl,
    of_nextState (by decide), rfl⟩

theorem witness_TrByteAppendsUnchecked : ∃ s : State, Running s .se ∧ offered s = some 0x1B ∧ s.wptr < s.cfg.cap ∧ s.eidx = 5 ∧
    s.tcnt = 1 ∧ s.tcnt.toNat ≤ 1 := ⟨mk .se 8 5 1 63 [some 0x1B], ⟨rfl, rfl⟩, rfl, by decide⟩

theorem witness_TrLastCompletesFrame : ∃ s : State, Running s .se ∧ offered s = some 0xFF ∧ s.wptr + 1 = s.cfg.cap ∧
    s.wptr < s.cfg.cap ∧ s.eidx = 5 ∧ s.tcnt = 2 := ⟨mk .se 8 5 2 63 [some 0xFF], ⟨rfl, rfl⟩, rfl, by decide⟩

theorem witness_OvfDiscardDropsFrameAndCounts : ∃ s : State, Running s .se ∧ offered s = some 0x00 ∧ s.wptr = s.cfg.cap ∧
    s.ovfCount = 0xFFFFFFFF ∧ selected s = .ovfDiscard :=
  ⟨{ mk .se 8 5 2 64 [some 0x00] with ovfCount := 0xFFFFFFFF }, ⟨rfl, rfl⟩, rfl, by decide⟩

/-- A frame shorter than 22 bytes, one that fills the buffer and holds no signature, and the step of a TR.LAST. -/
theorem witness_EmitExtractsAndClears :
    (∃ s : State, s.cfg.wf = true ∧ Running s .re ∧ s.wptr ≤ s.cfg.cap ∧ s.wptr = 21 ∧ s.wptr < 22) ∧
    (∃ s : State, s.cfg.wf = true ∧ Running s .re ∧ s.wptr ≤ s.cfg.cap ∧ s.wptr = s.cfg.cap ∧
      (∀ o, o + 26 ≤ s.wptr → matchAt s.buf (fsig1 s.cfg) o = false) ∧
      (∀ o, o + 22 ≤ s.wptr → matchAt s.buf (fsig2 s.cfg) o = false)) ∧
    (selected seState = .trLast ∧ ∃ t, step seState = .next t) := by
  refine ⟨⟨mk .re 8 5 3 21 [], by decide, ⟨rfl, rfl⟩, by decide⟩, ⟨mk .re 8 5 3 64 [some 0x1B], by decide, ⟨rfl, rfl⟩,
    by decide, rfl, fun o _ => ?_, fun o _ => ?_⟩, by decide, next_of_isSome (by decide)⟩
  · exact Bool.eq_false_iff.2 fun h => absurd h (by simp [mk, State.reset, fsig1, Config.test, matchAt])
  · exact Bool.eq_false_iff.2 fun h => absurd h (by simp [mk, State.reset, fsig2, Config.test, matchAt])

/-- `rst` high in the reserved state and in a state that would overflow. -/
theorem witness_ResetLeavesResetState : rstNow { mk .reserved 0 0 0 0 [] with rstIn := [true] } = true ∧
    rstNow { mk .se 8 0 0 64 [some 0x00] with rstIn := [true] } = true := by decide

theorem witness_ReservedStateIsStuck :
    Running (mk .reserved 0 0 0 0 [some 0x1B]) .reserved ∧
    (rstNow { mk .reserved 0 0 0 0 [] with rstIn := [true] } = true ∧
      ({ mk .reserved 0 0 0 0 [] with rstIn := [true] } : State).st = .reserved) ∧
    (exec .waitSs (mk .reserved 0 0 0 0 []) = .next (mk .reserved 0 0 0 0 []) ∧ (mk .reserved 0 0 0 0 []).st = .reserved) :=
  ⟨⟨rfl, rfl⟩, ⟨rfl, rfl⟩, rfl, rfl⟩

theorem witness_DecodeInvertsEncode : 512 ≤ 512 ∧ decodeWord 512 = .error (.notASelector 512) := ⟨Nat.le_refl _, rfl⟩

theorem witness_PriorityOfEvents :
    rstNow { fullState with rstIn := [true] } = true ∧
    (rstNow reState = false ∧ reState.st = .re) ∧
    (rstNow fullState = false ∧ fullState.st = .se ∧ av fullState = true ∧ fullState.wptr = fullState.cfg.cap) ∧
    offered { fullState with rstIn := [true] } = some 0xAA := by decide

theorem witness_StepPerformsSelectedOperation :
    decodeSel (selector fullState) = .ovfDiscard ∧ decodeSel (selector (mk .reserved 0 0 0 0 [])) = .rsvdSt3 := by decide

theorem witness_PlacedSelectorIsPerformed : reState.cfg.wf = true ∧ 511 < 512 ∧
    selected (reState.withFetchWord 16 511) = .reset := by decide

/-- Each clause: SS, SE in the trailer phase, no trailer phase, nothing on offer, RE. -/
theorem witness_UnreachableSelectors :
    (BlockInv ssState ∧ ssState.st = .ss ∧ trl ssState = false ∧ av ssState = false) ∧
    (BlockInv seState ∧ seState.st = .se ∧ trl seState = true) ∧ (BlockInv reState ∧ reState.st = .re) :=
  ⟨⟨inv_ss, rfl, rfl, rfl⟩, ⟨inv_se, rfl, by decide⟩, inv_re, rfl⟩

theorem witness_TransitionTable : seState.st ≠ .reserved ∧ ∃ t, step seState = .next t :=
  ⟨by decide, next_of_isSome (by decide)⟩

theorem witness_EveryStepKeepsInvariants :
    (BlockInv ssState ∧ ∃ t, step ssState = .next t) ∧ (BlockInv seState ∧ ∃ t, step seState = .next t) ∧
    (BlockInv fullState ∧ ∃ t, step fullState = .next t) ∧ (BlockInv reState ∧ ∃ t, step reState = .next t) :=
  ⟨⟨inv_ss, next_of_isSome (by decide)⟩, ⟨inv_se, next_of_isSome (by decide)⟩,
    ⟨inv_full, next_of_isSome (by decide)⟩, inv_re, next_of_isSome (by decide)⟩

theorem witness_ResetStateMeetsInvariants : Config.test.wf = true ∧ cfg16.wf = true := by decide

theorem witness_EveryStepGoesOn : BlockInv fullState ∧ BlockInv reState := ⟨inv_full, inv_re⟩

theorem witness_EveryStepKeepsBufferCanonical : seState.buf.ok seState.cfg.cap ∧ ∃ t, step seState = .next t :=
  ⟨inv_se.buf_ok, next_of_isSome (by decide)⟩

theorem witness_ParametersAreConstant : (∃ t, exec .trLast seState = .next t) ∧ ∃ t, step fullState = .next t :=
  ⟨next_of_isSome (by decide), next_of_isSome (by decide)⟩

/-- A write of 00, which removes the cell, and a write of another value. -/
theorem witness_BufferReadAfterWrite : seState.buf.wf = true ∧ ((seState.buf.write 0 0).read 0 = 0) ∧
    ((seState.buf.write 0 5).read 0 = 5) := by decide

theorem witness_OperationTableIsTotalAndDisjoint : selector fullState &&& rowMask .ovfDiscard = rowMatch .ovfDiscard := by decide

theorem witness_AppendChecksTheBoundary : fullState.wptr = fullState.cfg.cap ∧ seState.wptr < seState.cfg.cap ∧
    seState.wptr ≤ seState.cfg.cap ∧ selected seState = .trLast ∧ offered fullState = some 0xAA := by decide

theorem witness_FullAppendIsTheOverflowEvent : fullState.wptr = fullState.cfg.cap := by decide

theorem witness_OverflowRaisedExactlyWhenFull : ovfEvent fullState = true ∧ (∃ t, step fullState = .next t) ∧
    rstNow fullState = false ∧ fullState.st = .se ∧ av fullState = true ∧ fullState.wptr = fullState.cfg.cap :=
  ⟨by decide, next_of_isSome (by decide), by decide⟩

theorem witness_OverflowCountSaturates : ∃ t, step { fullState with ovfCount := 0xFFFFFFFF } = .next t :=
  next_of_isSome (by decide)

/-- An open frame, and a complete one. -/
theorem witness_CollectedBytesAreTheWireImage :
    (∃ t, runHold (State.resetWith Config.test) startSig = .next t ∧ t.st ≠ .ss) ∧
    (∃ t, runHold (State.resetWith cfg16) (frame [] 0x01 0x02 0x03) = .next t ∧ t.st ≠ .ss) ∧ cfg16.wf = true :=
  ⟨⟨{ mk .se 8 0 0 8 [] with buf := loaded startSig }, of_nextState (by decide), by decide⟩,
    ⟨{ mk .re 8 5 3 16 [] with cfg := cfg16, buf := loaded (frame [] 0x01 0x02 0x03) }, of_nextState (by decide),
      by decide⟩, by decide⟩

/-- Exactly `CAP` bytes. -/
theorem witness_OverflowsAreFarApart : ∃ s t : State, ∃ bytes : List Byte, BlockInv s ∧ s.st = .ss ∧ s.sidx = 0 ∧
    bytes.length = s.cfg.cap ∧ bytes.length ≤ s.cfg.cap ∧ runHold s bytes = .next t := by
  have inv : BlockInv (State.resetWith cfg16) :=
    ⟨by decide, Memory.ok_nil _, by decide, fun _ => ⟨by decide, rfl, rfl, rfl, by decide⟩, nofun, nofun, by decide,
      fun _ _ _ => rfl⟩
  have ⟨t, h⟩ : ∃ t, runHold (State.resetWith cfg16) (startSig ++ List.replicate 8 0x99) = .next t :=
    next_of_isSome (by decide)
  exact ⟨_, t, _, inv, rfl, rfl, by decide, by decide, h⟩

theorem witness_FrameOfOperationsThatStoreNothing : (∃ t, exec .waitSs ssState = .next t) ∧
    (∃ t, exec .waitSe seState = .next t) ∧ ∃ t, exec .ssMiss (mk .ss 4 0 0 0 [some 0x1B]) = .next t :=
  ⟨next_of_isSome (by decide), next_of_isSome (by decide), next_of_isSome (by decide)⟩

theorem witness_FrameOfStartStores : (∃ t, exec .ssHit (mk .ss 6 0 0 0 [some 0x01]) = .next t) ∧
    ∃ t, exec .ssOpen (mk .ss 7 0 0 0 [some 0x01]) = .next t :=
  ⟨next_of_isSome (by decide), next_of_isSome (by decide)⟩

/-- With room, each of the five; without room, on the state of B5. -/
theorem witness_FrameOfAppendingOperations :
    (∃ t, exec .seMiss (mk .se 8 4 0 63 [some 0x1B]) = .next t) ∧ (∃ t, exec .seHit (mk .se 8 3 0 63 [some 0x1B]) = .next t) ∧
    (∃ t, exec .seClose (mk .se 8 4 0 63 [some 0x1A]) = .next t) ∧ (∃ t, exec .trByte (mk .se 8 5 1 63 [some 0]) = .next t) ∧
    (∃ t, exec .trLast (mk .se 8 5 2 63 [some 0]) = .next t) ∧ (mk .se 8 5 2 63 [some 0]).wptr ≠ Config.test.cap ∧
    (∃ t, exec .seClose fullState = .next t) ∧ fullState.wptr = fullState.cfg.cap :=
  ⟨next_of_isSome (by decide), next_of_isSome (by decide), next_of_isSome (by decide),
    next_of_isSome (by decide), next_of_isSome (by decide), by decide, next_of_isSome (by decide),
    by decide⟩

theorem witness_FrameOfClearingOperations : (∃ t, exec .emit reState = .next t) ∧ (∃ t, exec .ovfDiscard fullState = .next t) ∧
    ∃ t, exec .reset reState = .next t :=
  ⟨next_of_isSome (by decide), next_of_isSome (by decide), next_of_isSome (by decide)⟩

/-- Taken in SE; on offer and not taken in RE. -/
theorem witness_BytesAreTakenOnceAndInOrder :
    (seState.st ≠ .reserved ∧ take seState = true ∧ ∃ t, step seState = .next t) ∧
    (reState.st ≠ .reserved ∧ take reState = false ∧ offered reState = some 0x1B ∧ ∃ t, step reState = .next t) :=
  ⟨⟨by decide, by decide, next_of_isSome (by decide)⟩,
    by decide, by decide, rfl, next_of_isSome (by decide)⟩

theorem witness_FrameReadPort : 33 < reState.wptr ∧ reState.wptr ≤ 34 := by decide

theorem witness_OnlyEmitAndResetWriteReadings : (∃ t, step seState = .next t) ∧ selected seState ≠ .emit ∧
    selected seState ≠ .reset := ⟨next_of_isSome (by decide), by decide, by decide⟩

theorem witness_MatchIsByteEquality : matchAt reState.buf (fsig1 Config.test) 8 = true ∧
    matchAt reState.buf (fsig1 Config.test) 7 = false := by decide

/-- Signature 1: no match; the only match, at the last offset in range; signature 2 likewise. -/
theorem witness_ExtractTakesGreatestMatch : Config.test.wf = true ∧
    (∀ o, o + 26 ≤ 26 → matchAt (loaded (List.replicate 26 0x55)) (fsig1 Config.test) o = false) ∧
    (8 + 26 ≤ 34 ∧ matchAt reState.buf (fsig1 Config.test) 8 = true ∧
      ∀ p, 8 < p → p + 26 ≤ 34 → matchAt reState.buf (fsig1 Config.test) p = false) ∧
    (∀ o, o + 22 ≤ 22 → matchAt (loaded (List.replicate 22 0x55)) (fsig2 Config.test) o = false) ∧
    (0 + 22 ≤ 22 ∧ matchAt (loaded (field2 Config.test 9)) (fsig2 Config.test) 0 = true ∧
      ∀ p, 0 < p → p + 22 ≤ 22 → matchAt (loaded (field2 Config.test 9)) (fsig2 Config.test) p = false) := by
  refine ⟨by decide, fun o h => ?_, ⟨by decide, by decide, fun p h1 h2 => by omega⟩, fun o h => ?_,
    by decide, by decide, fun p h1 h2 => by omega⟩
  · obtain rfl : o = 0 := by omega
    decide
  · obtain rfl : o = 0 := by omega
    decide

/-- Two buffers that differ at address 26 and agree below. -/
theorem witness_ExtractReadsOnlyTheFrame : ∃ m m' : Memory, m ≠ m' ∧ ∀ a, a < 26 → m.read a = m'.read a :=
  ⟨loaded (field1 Config.test 7), (loaded (field1 Config.test 7)).write 26 1, by decide, by decide⟩

theorem witness_ValueIsBigEndian : readBytes (loaded (i64 100000)) 0 8 = [0x00, 0x00, 0x00, 0x00, 0x00, 0x01, 0x86, 0xA0] := by
  decide

/-- A completed frame with both fields, each at an offset of its own, and each value in a field that ends where the range ends. -/
theorem witness_FieldValueIsReadBack : ∃ m m' : Memory, Config.test.wf = true ∧
    (readBytes m 30 26 = field1 Config.test 0x8000000000000000 ∧ 30 + 26 ≤ 64 ∧
      ∀ p, 30 < p → p + 26 ≤ 64 → matchAt m (fsig1 Config.test) p = false) ∧
    (readBytes m 8 22 = field2 Config.test 0xFFFFFFFFFFFFFFFF ∧ 8 + 22 ≤ 64 ∧
      ∀ p, 8 < p → p + 22 ≤ 64 → matchAt m (fsig2 Config.test) p = false) ∧
    (readBytes m' 1 26 = field1 Config.test 7 ∧ 1 + 26 ≤ 27 ∧
      ∀ p, 1 < p → p + 26 ≤ 27 → matchAt m' (fsig1 Config.test) p = false) := by
  refine ⟨loaded (frame (field2 Config.test 0xFFFFFFFFFFFFFFFF ++ field1 Config.test 0x8000000000000000) 0x00 0xA1 0xB2),
    loaded ([0xEE] ++ field1 Config.test 7), by decide, ⟨by decide, by decide, fun p h1 h2 => ?_⟩,
    ⟨by decide, by decide, fun p h1 h2 => ?_⟩, by decide, by decide, fun p h1 h2 => by omega⟩
  · have key : ∀ q, q < 39 → 30 < q → matchAt (loaded (frame
      (field2 Config.test 0xFFFFFFFFFFFFFFFF ++ field1 Config.test 0x8000000000000000) 0x00 0xA1 0xB2))
      (fsig1 Config.test) q = false := by decide
    exact key p (by omega) h1
  · have key : ∀ q, q < 43 → 8 < q → matchAt (loaded (frame
      (field2 Config.test 0xFFFFFFFFFFFFFFFF ++ field1 Config.test 0x8000000000000000) 0x00 0xA1 0xB2))
      (fsig2 Config.test) q = false := by decide
    exact key p (by omega) h1

/-- X5, and the same with field signature 2. -/
theorem witness_SignatureAtPayloadEndReadsFurniture :
    (BlockInv reState ∧ reState.st = .re ∧ rstNow reState = false ∧
      matchAt reState.buf (fsig1 reState.cfg) (reState.wptr - 26) = true ∧ 26 ≤ reState.wptr ∧
      ∃ t, step reState = .next t ∧ t.q1 = 0x1B1B1B1B1A000000) ∧
    (BlockInv reState2 ∧ reState2.st = .re ∧ rstNow reState2 = false ∧
      matchAt reState2.buf (fsig2 reState2.cfg) (reState2.wptr - 22) = true ∧ 22 ≤ reState2.wptr ∧
      ∃ t, step reState2 = .next t ∧ t.q2 = 0x1B1B1B1B1AFFFFFF) :=
  ⟨⟨inv_re, rfl, rfl, by decide, by decide, { mk .ss 0 0 0 0 [some 0x1B] with q1 := 0x1B1B1B1B1A000000 },
      of_nextState (by decide), rfl⟩,
    inv_re2, rfl, rfl, by decide, by decide, { mk .ss 0 0 0 0 [] with q2 := 0x1B1B1B1B1AFFFFFF },
    of_nextState (by decide), rfl⟩

/-- The second half with a run that fills the buffer exactly. -/
theorem witness_RunLengthLaw :
    (State.reset.cfg.wf = true ∧ State.reset.st = .ss ∧ State.reset.sidx = 0 ∧ 4 % 5 = 4 ∧ 5 % 5 ≠ 4) ∧
    ((mk .se 8 0 0 8 []).st = .se ∧ (mk .se 8 0 0 8 []).eidx = 0 ∧ (mk .se 8 0 0 8 []).wptr + 55 + 1 = Config.test.cap ∧
      (mk .se 8 0 0 8 []).wptr + 55 + 1 ≤ Config.test.cap) := by decide

/-- (a): a payload that fills the buffer exactly. -/
theorem witness_ScannerProperties_a : cfg16.wf = true ∧ 8 + (List.replicate 8 (0x55 : Byte)).length ≤ cfg16.cap ∧
    EndNotReached (State.resetWith cfg16) (startSig ++ List.replicate 8 0x55) ∧
    startSig <+: startSig ++ List.replicate 8 0x55 ∧ ∃ u, runHold (State.resetWith cfg16) startSig = .next u :=
  ⟨by decide, by decide, endNotReached_of (by decide), List.prefix_append _ _, next_of_isSome (by decide)⟩

/-- (b): the empty payload in the smallest buffer, and a payload byte. -/
theorem witness_ScannerProperties_b :
    (cfg16.wf = true ∧ 8 + ([] : List Byte).length + 5 + 3 ≤ cfg16.cap ∧
      EndNotReached (State.resetWith cfg16) (startSig ++ []) ∧
      ∃ u, runHold (State.resetWith cfg16) (startSig ++ []) = .next u ∧ u.eidx = 0) ∧
    (8 + [(0x76 : Byte)].length + 5 + 3 ≤ Config.test.cap ∧
      EndNotReached (State.resetWith Config.test) (startSig ++ [0x76]) ∧
      ∃ u, runHold (State.resetWith Config.test) (startSig ++ [0x76]) = .next u ∧ u.eidx = 0) :=
  ⟨⟨by decide, by decide, endNotReached_of (by decide),
      { mk .se 8 0 0 8 [] with cfg := cfg16, buf := loaded startSig }, of_nextState (by decide), rfl⟩,
    by decide, endNotReached_of (by decide),
    { mk .se 8 0 0 9 [] with buf := loaded (startSig ++ [0x76]) }, of_nextState (by decide), rfl⟩

/-- (c): the shortest and the longest prefix. -/
theorem witness_ScannerProperties_c : (0 < 8 ∧ startSig[0]? ≠ some 0x01) ∧ (7 < 8 ∧ startSig[7]? ≠ some 0x1B) := by decide

theorem witness_IdleStepsDoNotMatter : BlockInv State.reset ∧
    ∃ t, run State.reset ([none, some 0x1B, none].filterMap id) = .next t :=
  ⟨inv_reset, next_of_isSome (by decide)⟩

end Sys2Proof.Tests
end

section
/-! PROOFS of the family 00_scope.md. A step is the selected operation and then the passing of the step (R4, R48); and in each legal scan
state the operation of R48 that is selected goes on, so that no stop of the model is reachable (R4, R51). -/

namespace Sys2Proof.Machine

/-! ### A step through its operation -/

theorem step_of_selected {s : State} {i : Instr} (hs : selected s = i) :
    step s = andThen (exec i s) fun t => .next (elapse s t) := by
  rw [step, hs]

/-- Settles O21: a stop of the operation is the stop of the step, and a next state lets the inputs pass. -/
theorem stepPerformsSelectedOperation : Obligations.StepPerformsSelectedOperation := by
  intro s i hs
  rw [step_of_selected hs]
  cases exec i s with
  | next t => rfl
  | fault f => rfl
  | refused r => rfl

/-! ### Every scan state goes on -/

theorem steps_of_exec {s u : State} {i : Instr} (hs : selected s = i) (h : exec i s = .next u) : Steps s :=
  ⟨_, step_of_exec hs h⟩

/-- R3: the capacity of a part within the constraints. -/
theorem sixteen_le_cap_of_wf {c : Config} (h : c.wf = true) : 16 ≤ c.cap := by
  simp only [Config.wf, Config.capOk, Bool.and_eq_true, decide_eq_true_eq] at h
  obtain ⟨⟨hcap, -⟩, -⟩ := h
  exact hcap

theorem steps_of_rst {s : State} (hr : rstNow s = true) : Steps s :=
  steps_of_exec (selected_of_rst hr) (exec_reset s)

/-- In SeekingStart the stores stay within the first eight bytes: a byte is stored only where the start signature has one. -/
theorem steps_of_ss {s : State} (hr : rstNow s = false) (hs : s.st = .ss) (hc : 8 ≤ s.cfg.cap) : Steps s := by
  rcases ho : offered s with _ | b
  · exact steps_of_exec (selected_waitSs hr hs ho) (exec_waitSs s)
  · have op := selected_ss hr hs ho
    split_ifs at op with hit last
    · exact steps_of_exec op (exec_ssOpen ho hc)
    · have room : s.sidx.toNat < s.cfg.cap := (lt_of_getElem?_some hit).trans_le hc
      exact steps_of_exec op (exec_ssHit ho room)
    · exact steps_of_exec op (exec_ssMiss ho)

/-- In SeekingEnd a byte that finds no room is discarded, so that every operation that appends has room (R80). -/
theorem steps_of_se {s : State} (hr : rstNow s = false) (hs : s.st = .se) (hw : s.wptr ≤ s.cfg.cap) : Steps s := by
  rcases ho : offered s with _ | b
  · exact steps_of_exec (selected_waitSe hr hs ho) (exec_waitSe s)
  · have op := selected_se hr hs ho
    by_cases full : s.wptr = s.cfg.cap
    · rw [if_pos full] at op
      exact steps_of_exec op (exec_ovfDiscard ho)
    · have room : s.wptr < s.cfg.cap := lt_of_le_of_ne hw full
      rw [if_neg full] at op
      split_ifs at op
      · exact steps_of_exec op (exec_trLast ho room)
      · exact steps_of_exec op (exec_trByte ho room)
      · exact steps_of_exec op (exec_seClose ho room)
      · exact steps_of_exec op (exec_seHit ho room)
      · exact steps_of_exec op (exec_seMiss ho room)

theorem steps_of_re {s : State} (hr : rstNow s = false) (hs : s.st = .re) (hw : s.wptr ≤ s.cfg.cap) : Steps s :=
  steps_of_exec (selected_emit hr hs) (exec_emit hw)

/-- Settles O27: RESET goes on from every state, and with `rst` low each legal scan state does; the reserved one is excluded by V1. -/
theorem everyStepGoesOn : Obligations.EveryStepGoesOn := by
  intro s inv
  cases hr : rstNow s with
  | true => exact steps_of_rst hr
  | false =>
    cases hs : s.st with
    | ss => exact steps_of_ss hr hs (le_trans (by decide) (sixteen_le_cap_of_wf inv.cfg_ok))
    | se => exact steps_of_se hr hs inv.cursor
    | re => exact steps_of_re hr hs inv.cursor
    | reserved => exact absurd hs inv.st_legal

end Sys2Proof.Machine
end

section
/-! PROOFS of the family 10_state.md, the invariants of R21. An operation that clears leaves a state that meets them whatever was before
(R82); the other operations store one byte that extends the stored part of a signature or leaves the stored ones alone. -/

namespace Sys2Proof.Machine

/-! ### The stored part of a signature -/

/-- The stored part of a signature, as V2 of R21 says it byte by byte. -/
theorem readBytes_eq_take_iff {m : Memory} {sig : List Byte} {p n : Nat} (hn : n ≤ sig.length) :
    readBytes m p n = sig.take n ↔ ∀ i, i < n → some (m.read (p + i)) = sig[i]? := by
  have h := readBytes_eq_iff m p (sig.take n)
  rw [List.length_take, Nat.min_eq_left hn] at h
  rw [h]
  refine forall₂_congr fun i hi => ?_
  rw [List.getElem?_take_of_lt hi]

/-- The next expected byte, stored behind the stored part of a signature, makes it one byte longer. -/
theorem readBytes_write_next {m : Memory} {sig : List Byte} {p n : Nat} {b : Byte} (hm : m.wf = true)
    (stored : readBytes m p n = sig.take n) (hit : sig[n]? = some b) :
    readBytes (m.write (p + n) b) p (n + 1) = sig.take (n + 1) := by
  rw [readBytes_succ, readBytes_write_of_outside _ _ _ _ _ (.inr le_rfl), Memory.read_write_self _ _ _ hm, stored,
    List.take_add_one, hit]
  rfl

/-! ### States that a clear leaves -/

/-- A cleared state meets the invariants: nothing is collected and nothing is matched (R82). -/
theorem blockInv_of_cleared {s : State} (hwf : s.cfg.wf = true) (cleared : clear s = s) : BlockInv s := by
  rw [← cleared]
  exact {
    cfg_ok := hwf
    buf_ok := clear_buf_ok s _
    st_legal := nofun
    ss := fun _ => ⟨Nat.zero_le _, rfl, rfl, rfl, fun i hi => absurd hi (Nat.not_lt_zero i)⟩
    se := nofun
    re := nofun
    cursor := Nat.zero_le _
    clear_above := fun _ _ _ => rfl }

/-- Settles O26: the reset state is a cleared state. -/
theorem resetStateMeetsInvariants : Obligations.ResetStateMeetsInvariants :=
  ⟨fun _ hwf => blockInv_of_cleared hwf rfl, blockInv_of_cleared (by decide) rfl⟩

/-! ### What the invariants do not speak of -/

/-- The invariants are about the block and not about what the environment offers (R10). -/
theorem BlockInv.withInputs {s : State} (inv : BlockInv s) (r : List Bool) (l : List (Option Byte)) :
    BlockInv { s with rstIn := r, src := l } where
  cfg_ok := inv.cfg_ok
  buf_ok := inv.buf_ok
  st_legal := inv.st_legal
  ss h := { inv.ss h with }
  se h := { inv.se h with }
  re h := { inv.re h with }
  cursor := inv.cursor
  clear_above := inv.clear_above

theorem BlockInv.elapse {t : State} (inv : BlockInv t) (s : State) : BlockInv (elapse s t) := inv.withInputs _ _

theorem BlockInv.dropByte {s : State} (inv : BlockInv s) : BlockInv (dropByte s) := inv.withInputs _ _

/-! ### The operations of SeekingStart -/

/-- V2 of R21 for the stretch of the buffer it speaks of. -/
theorem SsInv.start_read {s : State} (ss : SsInv s) : readBytes s.buf 0 s.sidx.toNat = startSig.take s.sidx.toNat :=
  (readBytes_eq_take_iff (ss.sidx.trans (by decide))).2 fun i hi => by
    rw [Nat.zero_add]
    exact ss.prefix_stored i hi

/-- A start counter of 0 asks for no stored byte. -/
theorem BlockInv.ssMiss {s : State} (inv : BlockInv s) (st : s.st = .ss) : BlockInv { s with sidx := 0 } where
  cfg_ok := inv.cfg_ok
  buf_ok := inv.buf_ok
  st_legal := inv.st_legal
  ss _ := { inv.ss st with
    sidx := Nat.zero_le _
    prefix_stored := fun i hi => absurd hi (Nat.not_lt_zero i) }
  se h := ScanState.noConfusion (st.symm.trans h)
  re h := ScanState.noConfusion (st.symm.trans h)
  cursor := inv.cursor
  clear_above := inv.clear_above

/-- A byte of the start signature is stored in its place, below the eight addresses that the zeros begin at. -/
theorem BlockInv.ssHit {s : State} {b : Byte} (inv : BlockInv s) (st : s.st = .ss)
    (hit : startSig[s.sidx.toNat]? = some b) (more : s.sidx ≠ 7) (room : s.sidx.toNat < s.cfg.cap) :
    BlockInv { s with buf := s.buf.write s.sidx.toNat b, sidx := s.sidx + 1 } := by
  have ss := inv.ss st
  have hlt : s.sidx.toNat < 7 := lt_of_le_of_ne ss.sidx fun h => more (BitVec.eq_of_toNat_eq h)
  have hsucc : (s.sidx + 1).toNat = s.sidx.toNat + 1 := by bv_omega
  have stored := readBytes_write_next inv.buf_ok.1 ss.start_read hit
  rw [Nat.zero_add, readBytes_eq_take_iff (show s.sidx.toNat + 1 ≤ 8 by omega)] at stored
  exact {
    cfg_ok := inv.cfg_ok
    buf_ok := Memory.ok_write inv.buf_ok room b
    st_legal := inv.st_legal
    ss := fun _ => { ss with
      sidx := by simp only [hsucc]; omega
      prefix_stored := fun i hi => by
        rw [← stored i (by simpa only [hsucc] using hi), Nat.zero_add] }
    se := fun h => ScanState.noConfusion (st.symm.trans h)
    re := fun h => ScanState.noConfusion (st.symm.trans h)
    cursor := inv.cursor
    clear_above := fun a h8 hw => by
      rw [Memory.read_write_ne _ _ _ _ (by omega)]
      exact inv.clear_above a h8 hw }

/-- The last byte of the start signature completes it at the addresses 0 to 7, right below the cursor. -/
theorem BlockInv.ssOpen {s : State} {b : Byte} (inv : BlockInv s) (st : s.st = .ss)
    (hit : startSig[s.sidx.toNat]? = some b) (last : s.sidx = 7) (room : 7 < s.cfg.cap) :
    BlockInv { s with buf := s.buf.write 7 b, sidx := 8, wptr := 8, st := .se } := by
  have ss := inv.ss st
  have stored := readBytes_write_next inv.buf_ok.1 ss.start_read hit
  rw [last] at stored
  exact {
    cfg_ok := inv.cfg_ok
    buf_ok := Memory.ok_write inv.buf_ok room b
    st_legal := nofun
    ss := nofun
    se := fun _ => {
      sidx := rfl
      eidx := by simp [ss.eidx]
      tcnt := by simp [ss.tcnt]
      trailer := fun h => absurd ss.tcnt h
      cursor_low := by simp [ss.eidx, ss.tcnt]
      cursor_high := room
      start_stored := stored
      end_progress := fun _ => by simp [ss.eidx, readBytes_zero]
      end_stored := fun h => by simp [ss.eidx] at h }
    re := nofun
    cursor := room
    clear_above := fun a h8 _ => by
      rw [Memory.read_write_ne _ _ _ _ (by omega)]
      exact inv.clear_above a h8 (by rw [ss.wptr]; exact Nat.zero_le a) }

/-! ### The operations of SeekingEnd -/

/-- V4 and V5 of R21 in one: the bytes of the end signature that are matched stand right below the trailer bytes. -/
def EndRead (m : Memory) (w : Nat) (e : BitVec 3) (c : BitVec 2) : Prop :=
  readBytes m (w - c.toNat - e.toNat) e.toNat = endSig.take e.toNat

theorem SeInv.tcnt_eq_zero {s : State} (se : SeInv s) (h : s.eidx ≠ 5) : s.tcnt = 0 := by
  by_contra hc
  exact h (se.trailer hc)

theorem SeInv.end_read {s : State} (se : SeInv s) : EndRead s.buf s.wptr s.eidx s.tcnt := by
  unfold EndRead
  by_cases h5 : s.eidx = 5
  · have stored := se.end_stored h5
    rw [h5]
    exact stored
  · have hlt : s.eidx.toNat < 5 := lt_of_le_of_ne se.eidx fun h => h5 (BitVec.eq_of_toNat_eq h)
    rw [se.tcnt_eq_zero h5]
    exact se.end_progress hlt

/-- The next byte of the end signature, appended. -/
theorem SeInv.end_read_hit {s : State} {b : Byte} {e : BitVec 3} (se : SeInv s) (hm : s.buf.wf = true)
    (open_ : s.eidx ≠ 5) (hit : endSig[s.eidx.toNat]? = some b) (he : e.toNat = s.eidx.toNat + 1) :
    EndRead (s.buf.write s.wptr b) (s.wptr + 1) e s.tcnt := by
  have low := se.cursor_low
  have stored := se.end_read
  unfold EndRead at stored ⊢
  have hc : s.tcnt.toNat = 0 := by rw [se.tcnt_eq_zero open_]; rfl
  rw [hc, Nat.sub_zero] at stored ⊢
  have grown := readBytes_write_next hm stored hit
  rw [Nat.sub_add_cancel (by omega)] at grown
  rw [he, Nat.add_sub_add_right]
  exact grown

/-- A trailer byte, appended behind the end signature. -/
theorem SeInv.end_read_trailer {s : State} {c : BitVec 2} (se : SeInv s) (b : Byte)
    (hc : c.toNat = s.tcnt.toNat + 1) : EndRead (s.buf.write s.wptr b) (s.wptr + 1) s.eidx c := by
  have low := se.cursor_low
  unfold EndRead
  rw [hc, Nat.add_sub_add_right, readBytes_write_of_outside _ _ _ _ _ (by omega)]
  exact se.end_read

/-- The block after an append (R80), with the scan state and the end counters that the operation gives it. An append keeps the start
signature, the bound of the cursor and the zeros past it; what it does to the counters and the end signature is the operation's own. -/
theorem BlockInv.append {s : State} {b : Byte} {e : BitVec 3} {c : BitVec 2} {st' : ScanState} (inv : BlockInv s)
    (st : s.st = .se) (room : s.wptr < s.cfg.cap)
    (hst : st' = .se ∧ e.toNat ≤ 5 ∧ c.toNat ≤ 2 ∨ st' = .re ∧ e = 5 ∧ c = 3)
    (trailer : c ≠ 0 → e = 5) (low : 8 + e.toNat + c.toNat ≤ s.wptr + 1)
    (end_read : EndRead (s.buf.write s.wptr b) (s.wptr + 1) e c) :
    BlockInv { s with buf := s.buf.write s.wptr b, wptr := s.wptr + 1, st := st', eidx := e, tcnt := c } := by
  have se := inv.se st
  have h8 : 8 ≤ s.wptr := by have := se.cursor_low; omega
  have start : readBytes (s.buf.write s.wptr b) 0 8 = startSig := by
    rw [readBytes_write_of_outside _ _ _ _ _ (.inr h8)]
    exact se.start_stored
  exact {
    cfg_ok := inv.cfg_ok
    buf_ok := Memory.ok_write inv.buf_ok room b
    st_legal := by rcases hst with ⟨rfl, -⟩ | ⟨rfl, -⟩ <;> exact nofun
    ss := by rcases hst with ⟨rfl, -⟩ | ⟨rfl, -⟩ <;> exact nofun
    se := by
      rcases hst with ⟨rfl, he, hc⟩ | ⟨rfl, -⟩
      · refine fun _ => ⟨se.sidx, he, hc, trailer, low, room, start, fun hlt => ?_, fun h5 => ?_⟩
        · have hc0 : c = 0 := by
            by_contra h
            rw [trailer h] at hlt
            exact absurd hlt (lt_irrefl 5)
          rw [hc0] at end_read
          exact end_read
        · simp only at h5
          rw [h5] at end_read
          exact end_read
      · exact nofun
    re := by
      rcases hst with ⟨rfl, -⟩ | ⟨rfl, rfl, rfl⟩
      · exact nofun
      · exact fun _ => ⟨se.sidx, rfl, rfl, low, room, start, end_read⟩
    cursor := room
    clear_above := fun a ha hw => by
      have hlt : s.wptr < a := hw
      rw [Memory.read_write_ne _ _ _ _ hlt.ne']
      exact inv.clear_above a ha hlt.le }

theorem BlockInv.seMiss {s : State} {b : Byte} (inv : BlockInv s) (st : s.st = .se) (room : s.wptr < s.cfg.cap)
    (open_ : s.eidx ≠ 5) :
    BlockInv { s with buf := s.buf.write s.wptr b, wptr := s.wptr + 1, eidx := 0 } := by
  have se := inv.se st
  have low := se.cursor_low
  have hc := se.tcnt_eq_zero open_
  have kept := inv.append (b := b) (e := 0) st room (.inl ⟨rfl, Nat.zero_le 5, se.tcnt⟩) (fun h => absurd hc h)
    (show 8 + 0 + s.tcnt.toNat ≤ s.wptr + 1 by omega) rfl
  rwa [← st] at kept

theorem BlockInv.seMatch {s : State} {b : Byte} {e : BitVec 3} (inv : BlockInv s) (st : s.st = .se)
    (room : s.wptr < s.cfg.cap) (open_ : s.eidx ≠ 5) (hit : endSig[s.eidx.toNat]? = some b)
    (he : e.toNat = s.eidx.toNat + 1) :
    BlockInv { s with buf := s.buf.write s.wptr b, wptr := s.wptr + 1, eidx := e } := by
  have se := inv.se st
  have low := se.cursor_low
  have hlt : s.eidx.toNat < 5 := lt_of_getElem?_some hit
  have kept := inv.append (b := b) st room (.inl ⟨rfl, by omega, se.tcnt⟩) (fun h => absurd (se.tcnt_eq_zero open_) h)
    (by omega) (se.end_read_hit inv.buf_ok.1 open_ hit he)
  rwa [← st] at kept

theorem BlockInv.trByte {s : State} {b : Byte} (inv : BlockInv s) (st : s.st = .se) (room : s.wptr < s.cfg.cap)
    (trl : s.eidx = 5) (more : s.tcnt ≠ 2) :
    BlockInv { s with buf := s.buf.write s.wptr b, wptr := s.wptr + 1, tcnt := s.tcnt + 1 } := by
  have se := inv.se st
  have low := se.cursor_low
  have hlt : s.tcnt.toNat < 2 := lt_of_le_of_ne se.tcnt fun h => more (BitVec.eq_of_toNat_eq h)
  have hc : (s.tcnt + 1).toNat = s.tcnt.toNat + 1 := by bv_omega
  have kept := inv.append (b := b) st room (.inl ⟨rfl, se.eidx, by omega⟩) (fun _ => trl) (by omega)
    (se.end_read_trailer b hc)
  rwa [← st] at kept

theorem BlockInv.trLast {s : State} {b : Byte} (inv : BlockInv s) (st : s.st = .se) (room : s.wptr < s.cfg.cap)
    (trl : s.eidx = 5) (last : s.tcnt = 2) :
    BlockInv { s with buf := s.buf.write s.wptr b, wptr := s.wptr + 1, tcnt := 3, st := .re } := by
  have se := inv.se st
  have low := se.cursor_low
  have hc : (3 : BitVec 2).toNat = s.tcnt.toNat + 1 := by rw [last]; rfl
  exact inv.append st room (.inr ⟨rfl, trl, rfl⟩) (fun _ => trl) (by omega) (se.end_read_trailer b hc)

/-! ### Every step -/

/-- Settles O25: the operation of a step keeps the invariants, and the passing of the step changes the inputs only. -/
theorem everyStepKeepsInvariants : Obligations.EveryStepKeepsInvariants := by
  intro s t inv h
  have drop := inv.dropByte
  cases step_cases h with
  | reset op rst ht => exact ht ▸ blockInv_of_cleared inv.cfg_ok rfl
  | waitSs op rst st none ht => exact ht ▸ inv.elapse s
  | ssMiss b op rst st byte miss ht => exact ht ▸ (drop.ssMiss st).elapse s
  | ssHit b op rst st byte hit more room ht => exact ht ▸ (drop.ssHit st hit more room).elapse s
  | ssOpen b op rst st byte hit last room ht => exact ht ▸ (drop.ssOpen st hit last room).elapse s
  | waitSe op rst st none ht => exact ht ▸ inv.elapse s
  | discard b op rst st byte full ht => exact ht ▸ blockInv_of_cleared inv.cfg_ok rfl
  | seMiss b op rst st byte room open_ miss ht => exact ht ▸ (drop.seMiss st room open_).elapse s
  | seHit b op rst st byte room open_ hit more ht =>
    have hlt : s.eidx.toNat < 5 := lt_of_getElem?_some hit
    have he : (s.eidx + 1).toNat = s.eidx.toNat + 1 := by bv_omega
    exact ht ▸ (drop.seMatch st room open_ hit he).elapse s
  | seClose b op rst st byte room hit last ht =>
    have open_ : s.eidx ≠ 5 := by rw [last]; decide
    have he : (5 : BitVec 3).toNat = s.eidx.toNat + 1 := by rw [last]; rfl
    exact ht ▸ (drop.seMatch st room open_ hit he).elapse s
  | trByte b op rst st byte room trl more ht => exact ht ▸ (drop.trByte st room trl more).elapse s
  | trLast b op rst st byte room trl last ht => exact ht ▸ (drop.trLast st room trl last).elapse s
  | emit op rst st room ht => exact ht ▸ blockInv_of_cleared inv.cfg_ok rfl

end Sys2Proof.Machine
end

section
/-! PROOFS of the family 10_state.md, the derived flags (R20), the Byte Source (R24), the frame read port (R26), and the registers that no
choice of an operation depends on (R14, R19). -/

namespace Sys2Proof.Machine

/-! ### The ports -/

/-- Settles O41: at reset nothing is offered, so that the operation is WAIT.SS. -/
theorem derivedFlags : Obligations.DerivedFlags := by
  refine ⟨fun s => ⟨by simp [inReady], by simp [frameReady], by simp [ovfEvent]⟩, fun c => ⟨rfl, rfl, ?_⟩⟩
  rw [ovfEvent, selected_waitSs rfl rfl rfl]
  rfl

/-- Settles O43. -/
theorem frameReadPort : Obligations.FrameReadPort :=
  fun _ _ => ⟨fun h => if_pos h, fun h => if_neg (not_lt.2 h)⟩

/-! ### The byte on offer -/

/-- The rows of R48 that consume a byte are those of a scanning state with `av` = 1. -/
theorem take_iff {s : State} :
    take s = true ↔ rstNow s = false ∧ (∃ b, offered s = some b) ∧ (s.st = .ss ∨ s.st = .se) := by
  unfold take
  cases hr : rstNow s with
  | true => simp [selected_of_rst hr, consumes]
  | false =>
    cases hs : s.st with
    | re => simp [selected_emit hr hs, consumes]
    | reserved => simp [selected_rsvdSt3 hr hs, consumes]
    | ss =>
      rcases ho : offered s with _ | b
      · simp [selected_waitSs hr hs ho, consumes]
      · rw [selected_ss hr hs ho]
        split_ifs <;> simp [consumes]
    | se =>
      rcases ho : offered s with _ | b
      · simp [selected_waitSe hr hs ho, consumes]
      · rw [selected_se hr hs ho]
        split_ifs <;> simp [consumes]

/-- The passing of a step alone does not withdraw a byte on offer (R5). -/
theorem elapse_src_of_offered {s : State} {b : Byte} (ho : offered s = some b) (u : State) :
    (elapse s u).src = u.src := by
  rw [elapse_src, offered_eq_some.1 ho, if_neg (by simp)]

/-- The source after a step in which a byte is on offer (R24). -/
theorem step_src_of_offered {s t : State} {b : Byte} (h : step s = .next t) (ho : offered s = some b) :
    t.src = if take s then s.src.tail else s.src := by
  cases step_cases h with
  | reset op _ ht | emit op _ _ _ ht | ssMiss _ op _ _ _ _ ht | ssHit _ op _ _ _ _ _ _ ht
  | ssOpen _ op _ _ _ _ _ _ ht | discard _ op _ _ _ _ ht | seMiss _ op _ _ _ _ _ _ ht
  | seHit _ op _ _ _ _ _ _ _ ht | seClose _ op _ _ _ _ _ _ ht | trByte _ op _ _ _ _ _ _ ht
  | trLast _ op _ _ _ _ _ _ ht =>
    rw [take, op, ht, elapse_src_of_offered ho]
    rfl
  | waitSs _ _ _ none _ | waitSe _ _ _ none _ => exact absurd (none.symm.trans ho) nofun

/-- Settles O42: a step with a byte on offer either takes it or leaves the source as it is, and only such a step takes one. -/
theorem bytesAreTakenOnceAndInOrder : Obligations.BytesAreTakenOnceAndInOrder := by
  refine ⟨fun s legal => ?_, fun s t h htake => ?_, fun s t h htake b ho => ?_⟩
  · rw [take_iff, av, Option.isSome_iff_exists]
    cases hs : s.st <;> simp_all
  · obtain ⟨-, ⟨b, ho⟩, -⟩ := take_iff.1 htake
    rw [step_src_of_offered h ho, if_pos htake]
  · have hsrc : t.src = s.src := by rw [step_src_of_offered h ho, htake]; rfl
    refine ⟨hsrc, ?_⟩
    rw [offered_eq_some, hsrc]
    exact offered_eq_some.1 ho

/-! ### The registers beside the scanner -/

/-- A state with other contents in the overflow counter and the reading registers. -/
def withRegs (s : State) (n : BitVec 32) (v w : Word) : State := { s with ovfCount := n, q1 := v, q2 := w }

/-- The overflow count after an operation (R19). -/
def countAfter (i : Instr) (n : BitVec 32) : BitVec 32 :=
  match i with
  | .reset => 0
  | .ovfDiscard => sat32 (n.toNat + 1)
  | _ => n

/-- The reading registers after an operation performed in the state `s` (R14). -/
def readingsAfter (s : State) (i : Instr) (v w : Word) : Word × Word :=
  match i with
  | .reset => (unsetReading, unsetReading)
  | .emit => extract s.cfg s.buf s.wptr v w
  | _ => (v, w)

theorem countAfter_of_ne {i : Instr} (hr : i ≠ .reset) (ho : i ≠ .ovfDiscard) (n : BitVec 32) :
    countAfter i n = n := by
  unfold countAfter
  split
  · exact absurd rfl hr
  · exact absurd rfl ho
  · rfl

theorem readingsAfter_of_ne {i : Instr} (he : i ≠ .emit) (hr : i ≠ .reset) (s : State) (v w : Word) :
    readingsAfter s i v w = (v, w) := by
  unfold readingsAfter
  split
  · exact absurd rfl hr
  · exact absurd rfl he
  · rfl

theorem sat32_toNat (n : Nat) : (sat32 n).toNat = min n (2 ^ 32 - 1) :=
  Nat.mod_eq_of_lt (by omega)

/-- The rest of a step does not depend on these registers, and each of them depends on its own old content only: the selector does not
look at them (R47). -/
theorem step_withRegs {s t : State} (h : step s = .next t) (n : BitVec 32) (v w : Word) :
    step (withRegs s n v w) = .next (withRegs t (countAfter (selected s) n)
      (readingsAfter s (selected s) v w).1 (readingsAfter s (selected s) v w).2) := by
  have same : ∀ {i u}, selected s = i → exec i (withRegs s n v w) = .next u →
      step (withRegs s n v w) = .next (elapse (withRegs s n v w) u) := fun op hu => step_of_exec op hu
  cases step_cases h with
  | reset op rst ht => rw [op, ht]; exact same op (exec_reset _)
  | waitSs op rst st none ht => rw [op, ht]; exact same op (exec_waitSs _)
  | ssMiss b op rst st byte miss ht => rw [op, ht]; exact same op (exec_ssMiss byte)
  | ssHit b op rst st byte hit more room ht => rw [op, ht]; exact same op (exec_ssHit byte room)
  | ssOpen b op rst st byte hit last room ht => rw [op, ht]; exact same op (exec_ssOpen byte room)
  | waitSe op rst st none ht => rw [op, ht]; exact same op (exec_waitSe _)
  | discard b op rst st byte full ht => rw [op, ht]; exact same op (exec_ovfDiscard byte)
  | seMiss b op rst st byte room open_ miss ht => rw [op, ht]; exact same op (exec_seMiss byte room)
  | seHit b op rst st byte room open_ hit more ht => rw [op, ht]; exact same op (exec_seHit byte room)
  | seClose b op rst st byte room hit last ht => rw [op, ht]; exact same op (exec_seClose byte room)
  | trByte b op rst st byte room trl more ht => rw [op, ht]; exact same op (exec_trByte byte room)
  | trLast b op rst st byte room trl last ht => rw [op, ht]; exact same op (exec_trLast byte room)
  | emit op rst st room ht => rw [op, ht]; exact same op (exec_emit room)

/-- What a step leaves in the registers: put back the contents they had before it. -/
theorem step_regs {s t : State} (h : step s = .next t) :
    t.ovfCount = countAfter (selected s) s.ovfCount ∧ (t.q1, t.q2) = readingsAfter s (selected s) s.q1 s.q2 := by
  have ht : t = withRegs t _ _ _ := next_eq_iff.1 ((step_withRegs h s.ovfCount s.q1 s.q2).symm.trans h)
  exact ⟨congrArg State.ovfCount ht, Prod.ext (congrArg State.q1 ht) (congrArg State.q2 ht)⟩

/-- Settles O34: the count after a step is a function of the operation and the count before. -/
theorem overflowCountSaturates : Obligations.OverflowCountSaturates := by
  refine ⟨fun s t h => ?_, fun s t n h => ⟨countAfter (selected s) n, ?_⟩⟩
  · obtain ⟨hn, -⟩ := step_regs h
    by_cases hr : selected s = .reset
    · exact .inl ⟨hr, by rw [hn, hr]; rfl⟩
    · by_cases ho : selected s = .ovfDiscard
      · exact .inr (.inl ⟨ho, by rw [hn, ho]; exact sat32_toNat _⟩)
      · refine .inr (.inr ⟨hr, ho, hn.trans (countAfter_of_ne hr ho _)⟩)
  · have hstep := step_withRegs h n s.q1 s.q2
    obtain ⟨-, hq⟩ := step_regs h
    rw [← hq] at hstep
    exact hstep

/-- Settles O45: the readings after a step are those before unless the operation is EMIT or RESET. -/
theorem onlyEmitAndResetWriteReadings : Obligations.OnlyEmitAndResetWriteReadings := by
  refine ⟨fun s t h he hr => ?_, fun s t v w h =>
    ⟨(readingsAfter s (selected s) v w).1, (readingsAfter s (selected s) v w).2, ?_⟩⟩
  · obtain ⟨-, hq⟩ := step_regs h
    rw [readingsAfter_of_ne he hr] at hq
    exact Prod.mk.inj hq
  · have hstep := step_withRegs h s.ovfCount v w
    obtain ⟨hn, -⟩ := step_regs h
    rw [← hn] at hstep
    exact hstep

end Sys2Proof.Machine
end

section
/-! PROOFS of the family 20_memory.md. An operation leaves the frame buffer as it is, clears it or stores one byte below CAP (R32, R36,
R82); and the bytes it holds as collected, the part of the start signature before a frame opens and `buf[0..wptr-1]` after, are always
the last bytes delivered (R33). -/

namespace Sys2Proof.Machine

/-! ### Reads after a write -/

/-- Settles O30. -/
theorem bufferReadAfterWrite : Obligations.BufferReadAfterWrite := by
  intro m x y v wf
  refine ⟨?_, Memory.wf_write m x v wf⟩
  split_ifs with here
  · rw [here, Memory.read_write_self m x v wf]
  · exact Memory.read_write_ne m x y v here

/-! ### The bytes of a value -/

theorem readBytes_eight (m : Memory) (p : Nat) :
    readBytes m p 8 = [m.read p, m.read (p + 1), m.read (p + 2), m.read (p + 3), m.read (p + 4), m.read (p + 5),
      m.read (p + 6), m.read (p + 7)] := rfl

/-- One byte less on the right, in the numerals that `i64` writes its offsets with. -/
theorem extractLsb'_append_byte_add {n : Nat} (x : BitVec n) (b : Byte) (k : Nat) :
    (x ++ b).extractLsb' (k + 8) 8 = x.extractLsb' k 8 :=
  BitVec.extractLsb'_append_eq_of_le (Nat.le_add_left 8 k)

/-- The bytes of a value read from the buffer, most significant first, are the bytes read, lowest address first (R34, R50). -/
theorem i64_memRead8 (m : Memory) (p : Nat) : i64 (memRead8 m p) = readBytes m p 8 := by
  simp only [i64, memRead8, extractLsb'_append_byte_add, BitVec.extractLsb'_append_eq_right, BitVec.extractLsb'_eq_self]
  rfl

theorem append_bytes_eq_self (v : Word) :
    v.extractLsb' 56 8 ++ v.extractLsb' 48 8 ++ v.extractLsb' 40 8 ++ v.extractLsb' 32 8 ++
      v.extractLsb' 24 8 ++ v.extractLsb' 16 8 ++ v.extractLsb' 8 8 ++ v.extractLsb' 0 8 = v := by
  simp only [BitVec.extractLsb'_append_extractLsb'_eq_extractLsb']
  exact BitVec.extractLsb'_eq_self

/-- A value whose bytes stand in the buffer, most significant first, is read back (R34, R50). -/
theorem memRead8_of_readBytes {m : Memory} {p : Nat} {v : Word} (h : readBytes m p 8 = i64 v) : memRead8 m p = v := by
  simp only [readBytes_eight, i64, List.cons_append, List.nil_append, List.cons.injEq] at h
  obtain ⟨h0, h1, h2, h3, h4, h5, h6, h7, -⟩ := h
  rw [memRead8, h0, h1, h2, h3, h4, h5, h6, h7]
  exact append_bytes_eq_self v

/-- Settles O50: the bytes of the value, and the value of its bytes. -/
theorem valueIsBigEndian : Obligations.ValueIsBigEndian := by
  refine ⟨fun m p => ?_, fun m p h => memRead8_of_readBytes (h.trans (by decide))⟩
  simpa [i64, readBytes_eight] using i64_memRead8 m p

/-! ### What an operation does to the parameters and the buffer -/

/-- What an operation can make of the buffer list of a part of capacity `cap`: it leaves it, clears it (R82), or stores one byte at an
address that exists (R32, R36). -/
inductive BufferChange (cap : Nat) (m : Memory) : Memory → Prop
  | kept : BufferChange cap m m
  | cleared : BufferChange cap m []
  | stored (a : Nat) (b : Byte) (below : a < cap) : BufferChange cap m (m.write a b)

theorem BufferChange.ok {cap : Nat} {m n : Memory} (change : BufferChange cap m n) (ok : m.ok cap) : n.ok cap := by
  cases change with
  | kept => exact ok
  | cleared => exact Memory.ok_nil cap
  | stored a b below => exact Memory.ok_write ok below b

/-- The five operations that append (R80), in the form their inversions have: with no room the frame is discarded, with room the
operation goes on to a state that differs from `appended` in its scan state and counters only. -/
theorem cfg_buf_of_append {s t : State} {after : Byte → State}
    (h : ∃ b, offered s = some b ∧
      ((s.wptr = s.cfg.cap ∧ t = discardFrame (dropByte s)) ∨ (s.wptr < s.cfg.cap ∧ t = after b)))
    (hafter : ∀ b, (after b).cfg = (appended s b).cfg ∧ (after b).buf = (appended s b).buf) :
    t.cfg = s.cfg ∧ BufferChange s.cfg.cap s.buf t.buf := by
  obtain ⟨b, -, ⟨-, rfl⟩ | ⟨room, rfl⟩⟩ := h
  · exact ⟨rfl, .cleared⟩
  · obtain ⟨hcfg, hbuf⟩ := hafter b
    exact ⟨hcfg, hbuf ▸ .stored s.wptr b room⟩

/-- Everything an operation that goes on can do to the parameters (R31) and to the buffer (R32). -/
theorem exec_cfg_buf {i : Instr} {s t : State} (h : exec i s = .next t) :
    t.cfg = s.cfg ∧ BufferChange s.cfg.cap s.buf t.buf := by
  cases i with
  | reset => obtain rfl := exec_reset_next.1 h; exact ⟨rfl, .cleared⟩
  | waitSs => obtain rfl := exec_waitSs_next.1 h; exact ⟨rfl, .kept⟩
  | ssMiss => obtain ⟨b, -, rfl⟩ := exec_ssMiss_next.1 h; exact ⟨rfl, .kept⟩
  | ssHit => obtain ⟨b, -, room, rfl⟩ := exec_ssHit_next.1 h; exact ⟨rfl, .stored _ b room⟩
  | ssOpen => obtain ⟨b, -, room, rfl⟩ := exec_ssOpen_next.1 h; exact ⟨rfl, .stored _ b room⟩
  | waitSe => obtain rfl := exec_waitSe_next.1 h; exact ⟨rfl, .kept⟩
  | ovfDiscard => obtain ⟨b, -, rfl⟩ := exec_ovfDiscard_next.1 h; exact ⟨rfl, .cleared⟩
  | seMiss => exact cfg_buf_of_append (exec_seMiss_next.1 h) fun _ => ⟨rfl, rfl⟩
  | seHit => exact cfg_buf_of_append (exec_seHit_next.1 h) fun _ => ⟨rfl, rfl⟩
  | seClose => exact cfg_buf_of_append (exec_seClose_next.1 h) fun _ => ⟨rfl, rfl⟩
  | trByte => exact cfg_buf_of_append (exec_trByte_next.1 h) fun _ => ⟨rfl, rfl⟩
  | trLast => exact cfg_buf_of_append (exec_trLast_next.1 h) fun _ => ⟨rfl, rfl⟩
  | emit => obtain ⟨-, rfl⟩ := exec_emit_next.1 h; exact ⟨rfl, .cleared⟩
  | rsvdSt3 => exact absurd h exec_rsvdSt3_next

/-- The same of a step: its passing changes the inputs only. -/
theorem step_cfg_buf {s t : State} (h : step s = .next t) :
    t.cfg = s.cfg ∧ BufferChange s.cfg.cap s.buf t.buf := by
  obtain ⟨u, hu, ht⟩ := andThen_eq_next.1 h
  rw [next_eq_iff.1 ht]
  exact (exec_cfg_buf hu :)

/-- Settles O28. -/
theorem everyStepKeepsBufferCanonical : Obligations.EveryStepKeepsBufferCanonical := by
  intro s t ok h
  obtain ⟨hcfg, change⟩ := step_cfg_buf h
  rw [hcfg]
  exact change.ok ok

/-- Settles O29. -/
theorem parametersAreConstant : Obligations.ParametersAreConstant :=
  ⟨fun _ _ _ h => (exec_cfg_buf h).1, fun _ _ h => (step_cfg_buf h).1⟩

/-! ### The bytes collected -/

/-- How many bytes from address 0 on belong to the frame in progress: the matched part of the start signature before a frame is open, the
bytes below the cursor after. -/
def collected (s : State) : Nat := if s.st = .ss then s.sidx.toNat else s.wptr

theorem collected_of_ss {s : State} (h : s.st = .ss) : collected s = s.sidx.toNat := if_pos h

theorem collected_of_ne_ss {s : State} (h : s.st ≠ .ss) : collected s = s.wptr := if_neg h

/-- What a step does to the collected bytes: it gives them up, leaves them while nothing is offered, or puts the byte on offer behind
them. -/
theorem step_collected {s t : State} (h : step s = .next t) :
    collected t = 0 ∨
    (offered s = none ∧ t.buf = s.buf ∧ collected t = collected s) ∨
    ∃ b, offered s = some b ∧ t.buf = s.buf.write (collected s) b ∧ collected t = collected s + 1 := by
  cases step_cases h with
  | reset _ _ ht | discard _ _ _ _ _ _ ht | emit _ _ _ _ ht => exact .inl (by rw [ht]; rfl)
  | ssMiss _ _ _ st _ _ ht => exact .inl (by rw [ht]; exact collected_of_ss st)
  | waitSs _ _ _ none ht | waitSe _ _ _ none ht => exact .inr (.inl ⟨none, by rw [ht]; rfl, by rw [ht]; rfl⟩)
  | ssHit b _ _ st byte hit _ _ ht =>
    have hlt : s.sidx.toNat < 8 := lt_of_getElem?_some hit
    refine .inr (.inr ⟨b, byte, ?_, ?_⟩)
    · rw [ht, collected_of_ss st]
      rfl
    · have hsucc : (s.sidx + 1).toNat = s.sidx.toNat + 1 := by bv_omega
      rw [ht, collected_of_ss st, ← hsucc]
      exact collected_of_ss st
  | ssOpen b _ _ st byte _ last _ ht =>
    have seven : collected s = 7 := by rw [collected_of_ss st, last]; rfl
    exact .inr (.inr ⟨b, byte, by rw [ht, seven]; rfl, by rw [ht, seven]; rfl⟩)
  | seMiss b _ _ st byte _ _ _ ht | seHit b _ _ st byte _ _ _ _ ht | seClose b _ _ st byte _ _ _ ht
  | trByte b _ _ st byte _ _ _ ht | trLast b _ _ st byte _ _ _ ht =>
    have cursor : collected s = s.wptr := collected_of_ne_ss (by rw [st]; nofun)
    refine .inr (.inr ⟨b, byte, ?_, ?_⟩)
    · rw [ht, cursor]
      rfl
    · rw [ht, cursor]
      exact collected_of_ne_ss (by simp [st])

/-- The buffer is canonical, and the collected bytes are the last ones of the list `l`. -/
structure CollectedFrom (s : State) (l : List Byte) : Prop where
  buf_ok : s.buf.ok s.cfg.cap
  image : readBytes s.buf 0 (collected s) <:+ l

/-- A step adds the byte on offer, if there is one, to the bytes delivered. (An offer that the step does not take comes with RESET or
EMIT, after which nothing is collected.) -/
theorem CollectedFrom.step {s t : State} {l : List Byte} (inv : CollectedFrom s l) (h : step s = .next t) :
    CollectedFrom t (l ++ (offered s).toList) := by
  refine ⟨everyStepKeepsBufferCanonical s t inv.buf_ok h, ?_⟩
  rcases step_collected h with none_left | ⟨hnone, hbuf, hcol⟩ | ⟨b, hb, hbuf, hcol⟩
  · rw [none_left]
    exact List.nil_suffix
  · rw [hnone, hbuf, hcol, Option.toList_none, List.append_nil]
    exact inv.image
  · rw [hb, hbuf, hcol, readBytes_succ, readBytes_write_of_outside _ _ _ _ _ (.inr (Nat.zero_add _).le), Nat.zero_add,
      Memory.read_write_self _ _ _ inv.buf_ok.1]
    exact (List.suffix_append_inj_of_length_eq rfl).2 ⟨inv.image, rfl⟩

theorem CollectedFrom.byteStep {s t : State} {l : List Byte} {b : Byte} (inv : CollectedFrom s l)
    (h : byteStep s b = .next t) : CollectedFrom t (l ++ [b]) :=
  CollectedFrom.step (s := offerByte s b) ⟨inv.buf_ok, inv.image⟩ h

theorem CollectedFrom.emitStep {s t : State} {l : List Byte} (inv : CollectedFrom s l)
    (h : emitStep s = .next t) : CollectedFrom t l := by
  rw [← List.append_nil l]
  exact CollectedFrom.step (s := offerNone s) ⟨inv.buf_ok, inv.image⟩ h

/-- A run adds exactly its bytes to the bytes delivered; an EMIT on the way adds none. -/
theorem CollectedFrom.runHold {s t : State} {l bytes : List Byte} (inv : CollectedFrom s l)
    (h : runHold s bytes = .next t) : CollectedFrom t (l ++ bytes) := by
  induction bytes generalizing s l with
  | nil =>
    obtain rfl := next_eq_iff.1 h
    rwa [List.append_nil]
  | cons b bytes ih =>
    rw [List.append_cons]
    by_cases re : s.st = .re
    · rw [runHold_cons_of_re re] at h
      obtain ⟨e, he, h⟩ := andThen_eq_next.1 h
      obtain ⟨u, hu, h⟩ := andThen_eq_next.1 h
      exact ih ((inv.emitStep he).byteStep hu) h
    · rw [runHold_cons_of_ne re] at h
      obtain ⟨u, hu, h⟩ := andThen_eq_next.1 h
      exact ih (inv.byteStep hu) h

/-- Settles O35: at reset nothing is collected and nothing delivered. -/
theorem collectedBytesAreTheWireImage : Obligations.CollectedBytesAreTheWireImage := by
  intro c bytes t _ h hst
  have start : CollectedFrom (State.resetWith c) [] := ⟨Memory.ok_nil _, List.nil_suffix⟩
  have image := (start.runHold h).image
  rwa [collected_of_ne_ss hst] at image

end Sys2Proof.Machine
end

section
/-! PROOFS of the family 30_encoding.md, the selector and the operation table. The condition bits of R47 are read off the state, the rows of
R48 are pairwise disjoint and together cover all selectors, and the model's placing of a selector (log 8) gives the bits its row looks at. -/

namespace Sys2Proof.Machine

/-! ### The condition bits of R47 -/

theorem av_iff {s : State} : av s = true ↔ ∃ b, offered s = some b := Option.isSome_iff_exists

theorem hit_iff {s : State} : hit s = true ↔ ∃ b, offered s = some b ∧
    ((s.st = .ss ∧ startSig[s.sidx.toNat]? = some b) ∨ (s.st = .se ∧ endSig[s.eidx.toNat]? = some b)) := by
  unfold hit
  cases offered s <;> cases s.st <;> simp

theorem last_iff {s : State} : last s = true ↔ (s.st = .ss ∧ s.sidx = 7) ∨ (s.st = .se ∧ s.eidx = 4) := by
  unfold last
  cases s.st <;> simp

theorem last_of_ss {s : State} (st : s.st = .ss) : last s = true ↔ s.sidx = 7 := by
  simp [last_iff, st]

theorem last_of_se {s : State} (st : s.st = .se) : last s = true ↔ s.eidx = 4 := by
  simp [last_iff, st]

theorem hit_of_ss {s : State} {b : Byte} (st : s.st = .ss) (ho : offered s = some b) :
    hit s = true ↔ startSig[s.sidx.toNat]? = some b := by
  simp [hit_iff, st, ho]

theorem hit_of_se {s : State} {b : Byte} (st : s.st = .se) (ho : offered s = some b) :
    hit s = true ↔ endSig[s.eidx.toNat]? = some b := by
  simp [hit_iff, st, ho]

theorem trl_iff {s : State} : trl s = true ↔ s.st = .se ∧ s.eidx = 5 := by
  simp [trl]

theorem tlast_iff {s : State} : tlast s = true ↔ s.st = .se ∧ s.eidx = 5 ∧ s.tcnt = 2 := by
  simp [tlast, and_assoc]

theorem full_iff {s : State} : full s = true ↔ s.wptr = s.cfg.cap := by
  simp [full]

/-- Where each condition bit stands in the selector (R47). -/
theorem selector_fields (s : State) :
    (selector s).getLsbD 8 = rstNow s ∧ (selector s).extractLsb' 6 2 = scanCode s.st ∧
    (selector s).getLsbD 5 = av s ∧ (selector s).getLsbD 4 = hit s ∧ (selector s).getLsbD 3 = last s ∧
    (selector s).getLsbD 2 = trl s ∧ (selector s).getLsbD 1 = tlast s ∧ (selector s).getLsbD 0 = full s := by
  simp only [selector, BitVec.getLsbD_append, BitVec.extractLsb'_append_eq_ite]
  simp

/-- Settles O16: the bits by their places; a byte that compares shows that the counter is within the signature. -/
theorem selectorBits : Obligations.SelectorBits := by
  intro s
  obtain ⟨h8, h67, h5, h4, h3, h2, h1, h0⟩ := selector_fields s
  rw [h8, h67, h5, h4, h3, h2, h1, h0, hit_iff]
  refine ⟨Iff.rfl, rfl, av_iff, ?_, last_iff, trl_iff, tlast_iff, full_iff⟩
  refine exists_congr fun b => and_congr_right fun _ => or_congr ?_ ?_
  · exact and_congr_right fun _ => ⟨fun h => ⟨Nat.le_of_lt_succ (lt_of_getElem?_some h), h⟩, And.right⟩
  · exact and_congr_right fun _ => ⟨fun h => ⟨lt_of_getElem?_some h, h⟩, And.right⟩

/-! ### The rows of the table -/

theorem rowHits_iff {sel : BitVec 9} {i : Instr} : rowHits sel i = true ↔ sel &&& rowMask i = rowMatch i := beq_iff_eq

theorem mem_allOps (i : Instr) : i ∈ allOps := by
  cases i <;> decide

/-- Two rows of R48 ask for different values of a bit that both look at. -/
theorem rows_clash {i j : Instr} (h : i ≠ j) : rowMatch i &&& rowMask j ≠ rowMatch j &&& rowMask i := by
  have clash : ∀ i ∈ allOps, ∀ j ∈ allOps, i ≠ j → rowMatch i &&& rowMask j ≠ rowMatch j &&& rowMask i := by
    decide +kernel
  exact clash i (mem_allOps i) j (mem_allOps j) h

theorem rowHits_unique {sel : BitVec 9} {i j : Instr} (hi : rowHits sel i = true) (hj : rowHits sel j = true) : i = j := by
  by_contra h
  refine rows_clash h ?_
  rw [← rowHits_iff.1 hi, ← rowHits_iff.1 hj]
  ac_rfl

/-- The rows cover all 512 selectors, so the decoder's default never decides (R48). -/
theorem rowHits_decodeSel (sel : BitVec 9) : rowHits sel (decodeSel sel) = true := by
  decide +revert +kernel

theorem decodeSel_eq_iff {sel : BitVec 9} {i : Instr} : decodeSel sel = i ↔ sel &&& rowMask i = rowMatch i := by
  rw [← rowHits_iff]
  exact ⟨fun h => h ▸ rowHits_decodeSel sel, rowHits_unique (rowHits_decodeSel sel)⟩

/-- Settles O17: the row of a selector is unique, so the decoder gives it. -/
theorem operationTableIsTotalAndDisjoint : Obligations.OperationTableIsTotalAndDisjoint := by
  refine ⟨fun sel i => decodeSel_eq_iff, fun s i h => ?_⟩
  have op : selected s = i := decodeSel_eq_iff.2 h
  exact ⟨step_of_selected op, by rw [take, op]⟩

/-! ### The reserved scan state (R51) -/

/-- The five operations that append (R80), in the form their inversions have. -/
theorem st_of_append {s t : State} {after : Byte → State}
    (h : ∃ b, offered s = some b ∧
      ((s.wptr = s.cfg.cap ∧ t = discardFrame (dropByte s)) ∨ (s.wptr < s.cfg.cap ∧ t = after b)))
    (hafter : ∀ b, (after b).st = s.st ∨ (after b).st = .re) : t.st = s.st ∨ t.st ≠ .reserved := by
  obtain ⟨b, -, ⟨-, rfl⟩ | ⟨-, rfl⟩⟩ := h
  · exact .inr nofun
  · exact (hafter b).imp id fun h => by rw [h]; nofun

/-- No operation writes the reserved code (R51). -/
theorem exec_st {i : Instr} {s t : State} (h : exec i s = .next t) : t.st = s.st ∨ t.st ≠ .reserved := by
  cases i with
  | reset => obtain rfl := exec_reset_next.1 h; exact .inr nofun
  | waitSs => obtain rfl := exec_waitSs_next.1 h; exact .inl rfl
  | ssMiss => obtain ⟨b, -, rfl⟩ := exec_ssMiss_next.1 h; exact .inl rfl
  | ssHit => obtain ⟨b, -, -, rfl⟩ := exec_ssHit_next.1 h; exact .inl rfl
  | ssOpen => obtain ⟨b, -, -, rfl⟩ := exec_ssOpen_next.1 h; exact .inr nofun
  | waitSe => obtain rfl := exec_waitSe_next.1 h; exact .inl rfl
  | ovfDiscard => obtain ⟨b, -, rfl⟩ := exec_ovfDiscard_next.1 h; exact .inr nofun
  | seMiss => exact st_of_append (exec_seMiss_next.1 h) fun _ => .inl rfl
  | seHit => exact st_of_append (exec_seHit_next.1 h) fun _ => .inl rfl
  | seClose => exact st_of_append (exec_seClose_next.1 h) fun _ => .inl rfl
  | trByte => exact st_of_append (exec_trByte_next.1 h) fun _ => .inl rfl
  | trLast => exact st_of_append (exec_trLast_next.1 h) fun _ => .inr rfl
  | emit => obtain ⟨-, rfl⟩ := exec_emit_next.1 h; exact .inr nofun
  | rsvdSt3 => exact absurd h exec_rsvdSt3_next

/-- Settles O15: in the reserved state the row is RSVD.ST3 or RESET, and every operation that goes on ends in the state it began in or
in a legal one. -/
theorem reservedStateIsStuck : Obligations.ReservedStateIsStuck := by
  refine ⟨exec_rsvdSt3, fun s ⟨hr, hs⟩ => ?_, fun s hr _ => ?_, fun i s t h ht => ?_, fun _ => rfl⟩
  · have op := selected_rsvdSt3 hr hs
    exact ⟨op, by rw [step_of_selected op]; rfl⟩
  · have op := selected_of_rst hr
    exact ⟨op, _, step_of_exec op (exec_reset s), rfl⟩
  · rcases exec_st h with same | legal
    · rw [← same, ht]
    · exact absurd ht legal

/-! ### Selectors that no state of the invariants forms (R55) -/

theorem av_of_hit {s : State} (h : hit s = true) : av s = true :=
  av_iff.2 ((hit_iff.1 h).imp fun _ => And.left)

theorem trl_of_tlast {s : State} (h : tlast s = true) : trl s = true := by
  obtain ⟨st, h5, -⟩ := tlast_iff.1 h
  exact trl_iff.2 ⟨st, h5⟩

theorem scanCode_eq_three_iff {st : ScanState} : scanCode st = 0b11 ↔ st = .reserved := by
  cases st <;> decide

/-- Settles O23: the counters of V2 and V4 to V6 of R21, with a capacity above 0, exclude the bits. -/
theorem unreachableSelectors : Obligations.UnreachableSelectors := by
  intro s inv
  refine ⟨fun st => ?_, fun _ htrl => ?_, fun htrl => ?_, fun hav => ?_, fun st => ?_,
    mt scanCode_eq_three_iff.1 inv.st_legal⟩
  · have hcap : 16 ≤ s.cfg.cap := sixteen_le_cap_of_wf inv.cfg_ok
    have hw : s.wptr = 0 := (inv.ss st).wptr
    simp only [Bool.eq_false_iff, ne_eq, trl_iff, tlast_iff, full_iff, st, hw]
    exact ⟨nofun, nofun, by omega⟩
  · obtain ⟨st, h5⟩ := trl_iff.1 htrl
    simp [Bool.eq_false_iff, hit_iff, last_iff, st, h5, endSig]
  · exact Bool.eq_false_iff.2 (mt trl_of_tlast (Bool.eq_false_iff.1 htrl))
  · exact Bool.eq_false_iff.2 (mt av_of_hit (Bool.eq_false_iff.1 hav))
  · simp [Bool.eq_false_iff, hit_iff, last_iff, trl_iff, tlast_iff, st]

/-! ### Placing a selector (log 8) -/

theorem append_bits_eq_self (sel : BitVec 9) :
    BitVec.ofBool (sel.getLsbD 8) ++ sel.extractLsb' 6 2 ++ BitVec.ofBool (sel.getLsbD 5) ++ BitVec.ofBool (sel.getLsbD 4) ++
      BitVec.ofBool (sel.getLsbD 3) ++ BitVec.ofBool (sel.getLsbD 2) ++ BitVec.ofBool (sel.getLsbD 1) ++
      BitVec.ofBool (sel.getLsbD 0) = sel := by
  refine BitVec.eq_of_getLsbD_eq fun i hi => ?_
  simp only [BitVec.getLsbD_append]
  interval_cases i <;> simp

theorem scanCode_scanOfCode (c : BitVec 2) : scanCode (scanOfCode c) = c := by
  decide +revert

/-- The table of R48 as a decision on the fields of a selector. -/
theorem decodeSel_eq_opOf (sel : BitVec 9) :
    decodeSel sel = opOf (sel.getLsbD 8) (scanOfCode (sel.extractLsb' 6 2)) (sel.getLsbD 5) (sel.getLsbD 4)
      (sel.getLsbD 3) (sel.getLsbD 2) (sel.getLsbD 1) (sel.getLsbD 0) := by
  rw [← decodeSel_bits, scanCode_scanOfCode, append_bits_eq_self]

theorem startSig_startAt {i : Nat} (h : i < 8) : startSig[i]? = some (startAt i) := by
  rw [startAt, List.getD_eq_getElem?_getD, List.getElem?_eq_getElem h]
  rfl

theorem endSig_endAt {i : Nat} (h : i < 5) : endSig[i]? = some (endAt i) := by
  rw [endAt, List.getD_eq_getElem?_getD, List.getElem?_eq_getElem h]
  rfl

/-- The byte chosen for a value of `hit` compares with the expected byte as that value says. -/
theorem eq_byteFor_iff {h : Bool} {e : Byte} : e = byteFor h e ↔ h = true := by
  cases h <;> simp [byteFor]

/-! The rows of a scan state look at the bits of that state only (R48); `hit` only where a byte is on offer. -/

theorem opOf_ss_congr {r a h h' l l' t t' u u' f f' : Bool} (hl : l = l') (hh : a = true → h = h') :
    opOf r .ss a h l t u f = opOf r .ss a h' l' t' u' f' := by
  subst hl
  cases a with
  | false => rfl
  | true => rw [hh rfl]; rfl

theorem opOf_se_congr {r a h h' l l' t t' u u' f f' : Bool} (hf : f = f') (ht : t = t') (hu : t' = true → u = u')
    (hl : t' = false → l = l') (hh : t' = false → a = true → h = h') :
    opOf r .se a h l t u f = opOf r .se a h' l' t' u' f' := by
  subst hf ht
  cases a with
  | false => rfl
  | true =>
    cases t with
    | true => rw [hu rfl]; rfl
    | false => rw [hl rfl, hh rfl rfl]; rfl

/-! The values that the placing chooses: `n` exactly when the selector's bit asks for it. -/

theorem ite_avoiding_eq_iff {α : Type} [DecidableEq α] {n x z : α} {b : Bool} (hz : z ≠ n) :
    (if b then n else if x = n then z else x) = n ↔ b = true := by
  split_ifs with hb hx
  · exact iff_of_true rfl hb
  · exact iff_of_false hz hb
  · exact iff_of_false hx hb

theorem ite_below_eq_iff {w : Nat} {n x : BitVec w} {b : Bool} (hn : 0 < n.toNat) :
    (if b then n else if x.toNat < n.toNat then x else 0) = n ↔ b = true := by
  split_ifs with hb hx
  · exact iff_of_true rfl hb
  · exact iff_of_false (fun e => hx.ne (congrArg BitVec.toNat e)) hb
  · exact iff_of_false (fun e => hn.ne (congrArg BitVec.toNat e)) hb

theorem ite_below_le {w : Nat} {n x : BitVec w} {b : Bool} :
    (if b then n else if x.toNat < n.toNat then x else 0).toNat ≤ n.toNat := by
  split_ifs with hb hx
  · exact le_rfl
  · exact hx.le
  · exact Nat.zero_le _

/-! ### A placed state -/

/-- What a placing sets in every scan state: the scan state, the cursor and the level of `rst`. -/
def placeShared (s : State) (sel : BitVec 9) : State :=
  { s with
    st := scanOfCode (sel.extractLsb' 6 2)
    wptr := if sel.getLsbD 0 then s.cfg.cap else if s.wptr = s.cfg.cap then 0 else s.wptr
    rstIn := sel.getLsbD 8 :: s.rstIn.tail }

/-- The placed state with its byte on offer, if the selector has `av` = 1. -/
def offerPlaced (sel : BitVec 9) (rest : List (Option Byte)) (p : State × Byte) : State :=
  { p.1 with src := (if sel.getLsbD 5 then some p.2 else none) :: rest }

section
variable {s : State} {sel : BitVec 9}

theorem placeSelector_of_ss (h : scanOfCode (sel.extractLsb' 6 2) = .ss) :
    placeSelector s sel = offerPlaced sel s.src.tail (placeSs (placeShared s sel) sel) := by
  simp only [placeSelector, h, placeShared, offerPlaced]

theorem placeSelector_of_se (h : scanOfCode (sel.extractLsb' 6 2) = .se) :
    placeSelector s sel = offerPlaced sel s.src.tail (placeSe (placeShared s sel) sel) := by
  simp only [placeSelector, h, placeShared, offerPlaced]

theorem placeSelector_of_not_scanning
    (h : scanOfCode (sel.extractLsb' 6 2) = .re ∨ scanOfCode (sel.extractLsb' 6 2) = .reserved) :
    placeSelector s sel = offerPlaced sel s.src.tail (placeShared s sel, 0) := by
  rcases h with h | h <;> simp only [placeSelector, h, placeShared, offerPlaced]

theorem av_offerPlaced (rest : List (Option Byte)) (p : State × Byte) :
    av (offerPlaced sel rest p) = sel.getLsbD 5 := by
  unfold av offered offerPlaced
  cases sel.getLsbD 5 <;> rfl

theorem offered_offerPlaced (rest : List (Option Byte)) (p : State × Byte) (h : sel.getLsbD 5 = true) :
    offered (offerPlaced sel rest p) = some p.2 := by
  rw [offered_eq_some, offerPlaced, h]
  rfl

theorem placeSs_sidx : (placeSs s sel).1.sidx = 7 ↔ sel.getLsbD 3 = true :=
  ite_below_eq_iff (n := 7) (by decide)

theorem placeSs_byte : startSig[(placeSs s sel).1.sidx.toNat]? = some (placeSs s sel).2 ↔ sel.getLsbD 4 = true := by
  have hlt : (placeSs s sel).1.sidx.toNat < 8 := Nat.lt_succ_of_le (ite_below_le (n := 7))
  rw [startSig_startAt hlt, Option.some_inj]
  exact eq_byteFor_iff

theorem placeSe_eidx_of_trl (h : sel.getLsbD 2 = true) : (placeSe s sel).1.eidx = 5 := by
  rw [placeSe, if_pos h]

theorem placeSe_tcnt_of_trl (h : sel.getLsbD 2 = true) : (placeSe s sel).1.tcnt = 2 ↔ sel.getLsbD 1 = true := by
  rw [placeSe, if_pos h]
  exact ite_avoiding_eq_iff (by decide)

theorem placeSe_eidx_le (h : sel.getLsbD 2 = false) : (placeSe s sel).1.eidx.toNat ≤ 4 := by
  rw [placeSe, h]
  exact ite_below_le (n := 4)

theorem placeSe_eidx (h : sel.getLsbD 2 = false) : (placeSe s sel).1.eidx = 4 ↔ sel.getLsbD 3 = true := by
  rw [placeSe, h]
  exact ite_below_eq_iff (n := 4) (by decide)

theorem placeSe_byte (h : sel.getLsbD 2 = false) :
    endSig[(placeSe s sel).1.eidx.toNat]? = some (placeSe s sel).2 ↔ sel.getLsbD 4 = true := by
  rw [endSig_endAt (Nat.lt_succ_of_le (placeSe_eidx_le h)), Option.some_inj, placeSe, h]
  exact eq_byteFor_iff

/-- In SeekingEnd a placing sets the end counters only. -/
theorem placeSe_kept : (placeSe s sel).1.st = s.st ∧ rstNow (placeSe s sel).1 = rstNow s ∧
    full (placeSe s sel).1 = full s := by
  unfold placeSe
  split <;> exact ⟨rfl, rfl, rfl⟩

theorem placeSe_trl : (placeSe s sel).1.eidx = 5 ↔ sel.getLsbD 2 = true := by
  refine ⟨fun h5 => ?_, placeSe_eidx_of_trl⟩
  by_contra hn
  have hle := placeSe_eidx_le (s := s) (Bool.eq_false_iff.2 hn)
  rw [h5] at hle
  exact absurd hle (by decide)

theorem full_placeShared (hcap : s.cfg.cap ≠ 0) : full (placeShared s sel) = sel.getLsbD 0 := by
  rw [Bool.eq_iff_iff, full_iff]
  exact ite_avoiding_eq_iff hcap.symm

/-- In SeekingStart the row looks at `av`, `hit` and `last`. -/
theorem selected_offerPlaced_placeSs (rest : List (Option Byte)) (st : s.st = .ss) :
    selected (offerPlaced sel rest (placeSs s sel)) =
      opOf (rstNow s) .ss (sel.getLsbD 5) (sel.getLsbD 4) (sel.getLsbD 3) (sel.getLsbD 2) (sel.getLsbD 1)
        (sel.getLsbD 0) := by
  have pst : (offerPlaced sel rest (placeSs s sel)).st = .ss := st
  rw [selected_eq, av_offerPlaced, pst]
  refine opOf_ss_congr ?_ fun hav => ?_
  · rw [Bool.eq_iff_iff, last_of_ss pst]
    exact placeSs_sidx
  · rw [Bool.eq_iff_iff, hit_of_ss pst (offered_offerPlaced _ _ hav)]
    exact placeSs_byte

/-- In SeekingEnd the row looks at `av`, `full` and `trl`, and then at `tlast` or at `hit` and `last`. -/
theorem selected_offerPlaced_placeSe (rest : List (Option Byte)) (st : s.st = .se) (hfull : full s = sel.getLsbD 0) :
    selected (offerPlaced sel rest (placeSe s sel)) =
      opOf (rstNow s) .se (sel.getLsbD 5) (sel.getLsbD 4) (sel.getLsbD 3) (sel.getLsbD 2) (sel.getLsbD 1)
        (sel.getLsbD 0) := by
  obtain ⟨kst, krst, kfull⟩ := placeSe_kept (s := s) (sel := sel)
  have pst : (offerPlaced sel rest (placeSe s sel)).st = .se := kst.trans st
  have prst : rstNow (offerPlaced sel rest (placeSe s sel)) = rstNow s := krst
  have ptrl : trl (offerPlaced sel rest (placeSe s sel)) = sel.getLsbD 2 := by
    rw [Bool.eq_iff_iff, trl_iff]
    exact (and_iff_right pst).trans placeSe_trl
  rw [selected_eq, av_offerPlaced, pst, prst]
  refine opOf_se_congr (kfull.trans hfull) ptrl (fun h => ?_) (fun h => ?_) fun h hav => ?_
  · rw [Bool.eq_iff_iff, tlast_iff]
    exact (and_iff_right pst).trans ((and_iff_right (placeSe_eidx_of_trl h)).trans (placeSe_tcnt_of_trl h))
  · rw [Bool.eq_iff_iff, last_of_se pst]
    exact placeSe_eidx h
  · rw [Bool.eq_iff_iff, hit_of_se pst (offered_offerPlaced _ _ hav)]
    exact placeSe_byte h

/-- The next step performs the placed selector's row. (The cursor placed for `full` = 0 may be 0, so a
capacity of 0 is excluded.) -/
theorem selected_placeSelector (hcap : s.cfg.cap ≠ 0) : selected (placeSelector s sel) = decodeSel sel := by
  rw [decodeSel_eq_opOf]
  cases st : scanOfCode (sel.extractLsb' 6 2) with
  | ss =>
    rw [placeSelector_of_ss st]
    exact selected_offerPlaced_placeSs _ st
  | se =>
    rw [placeSelector_of_se st]
    exact selected_offerPlaced_placeSe _ st (full_placeShared hcap)
  | re =>
    have pst : (placeSelector s sel).st = .re := by rw [placeSelector_of_not_scanning (.inl st)]; exact st
    rw [selected_eq, pst, placeSelector_of_not_scanning (.inl st)]
    rfl
  | reserved =>
    have pst : (placeSelector s sel).st = .reserved := by rw [placeSelector_of_not_scanning (.inr st)]; exact st
    rw [selected_eq, pst, placeSelector_of_not_scanning (.inr st)]
    rfl

end

/-- Settles O22: R3 excludes the capacity 0. -/
theorem placedSelectorIsPerformed : Obligations.PlacedSelectorIsPerformed := by
  intro s _ w hwf _
  have := sixteen_le_cap_of_wf hwf
  exact selected_placeSelector (by omega)

end Sys2Proof.Machine
end

section
/-! PROOFS of the family 30_encoding.md, the wire formats. A field (R46) that stands in the buffer is a match of its signature (R92) with
the bytes of its value behind it (R94), and the last match in range is the one whose value stays (R97). -/

namespace Sys2Proof.Machine

theorem readBytes_cons (m : Memory) (p n : Nat) : readBytes m p (n + 1) = m.read p :: readBytes m (p + 1) n := by
  rw [Nat.add_comm n 1, readBytes_add]
  rfl

/-- R92: a signature matches where its bytes stand. -/
theorem matchAt_iff {m : Memory} {sig : List Byte} {o : Nat} :
    matchAt m sig o = true ↔ readBytes m o sig.length = sig := by
  induction sig generalizing o with
  | nil => simp [matchAt, readBytes_zero]
  | cons x xs ih => simp [matchAt, readBytes_cons, ih]

/-- One offset more in range is one round more of the loop (R91, R93). -/
theorem scanField_succ (m : Memory) (sig : List Byte) (n : Nat) (old : Word) :
    scanField m sig (n + 1 + (sig.length + 7)) old =
      if matchAt m sig n then memRead8 m (n + sig.length) else scanField m sig (n + (sig.length + 7)) old := by
  have more : offsetCount sig.length (n + 1 + (sig.length + 7)) = n + 1 := by unfold offsetCount; omega
  have fewer : offsetCount sig.length (n + (sig.length + 7)) = n := by unfold offsetCount; omega
  rw [scanField, scanField, more, fewer, List.range_succ, List.foldl_append]
  rfl

/-- The loop ends with the value at the last match in range (R97). -/
theorem scanField_of_last_match {m : Memory} {sig : List Byte} {o len : Nat} (old : Word)
    (fits : o + (sig.length + 8) ≤ len) (found : matchAt m sig o = true)
    (later : ∀ p, o < p → p + (sig.length + 8) ≤ len → matchAt m sig p = false) :
    scanField m sig len old = memRead8 m (o + sig.length) := by
  obtain ⟨n, rfl⟩ : ∃ n, len = n + (sig.length + 7) := ⟨len - (sig.length + 7), by omega⟩
  induction n with
  | zero => omega
  | succ n ih =>
    rw [scanField_succ]
    by_cases here : o = n
    · rw [← here, if_pos found]
    · rw [later n (by omega) (by omega)]
      exact ih (by omega) fun p hp hn => later p hp (by omega)

/-- A field on the wire (R46), read back. -/
theorem scanField_of_field {m : Memory} {sig : List Byte} {v : Word} {o len : Nat} (old : Word)
    (field : readBytes m o (sig.length + 8) = sig ++ i64 v) (fits : o + (sig.length + 8) ≤ len)
    (later : ∀ p, o < p → p + (sig.length + 8) ≤ len → matchAt m sig p = false) :
    scanField m sig len old = v := by
  rw [readBytes_add] at field
  obtain ⟨found, value⟩ := List.append_inj field (readBytes_length m o sig.length)
  rw [scanField_of_last_match old fits (matchAt_iff.2 found) later]
  exact memRead8_of_readBytes value

theorem fsig_lengths {c : Config} (h : c.wf = true) : (fsig1 c).length = 18 ∧ (fsig2 c).length = 14 := by
  simp only [Config.wf, Config.fsig1Ok, Config.fsig2Ok, Bool.and_eq_true, decide_eq_true_eq] at h
  obtain ⟨⟨-, h1⟩, h2⟩ := h
  exact ⟨by rw [fsig1, List.length_append, h1]; rfl, by rw [fsig2, List.length_append, h2]; rfl⟩

/-- Settles O51: the two signatures, with their lengths of R3, are one case. -/
theorem fieldValueIsReadBack : Obligations.FieldValueIsReadBack := by
  intro c m v a1 a2 o len hwf
  obtain ⟨h1, h2⟩ := fsig_lengths hwf
  refine ⟨fun field fits later => ?_, fun field fits later => ?_⟩
  · exact scanField_of_field a1 (by rw [h1]; exact field) (by rw [h1]; exact fits) (by rw [h1]; exact later)
  · exact scanField_of_field a2 (by rw [h2]; exact field) (by rw [h2]; exact fits) (by rw [h2]; exact later)

end Sys2Proof.Machine
end

section
/-! PROOFS of the family 40_frame_scanner.md, the operations of the Frame Scanner (R65 to R75) and the transition table (R77). The row of
R48 is read off the scan state and the byte on offer, and its effect is that of the operation. -/

namespace Sys2Proof.Machine

/-! ### The flags of a scanning step -/

/-- The flags of a scanning step are those of its row (R20, R24). -/
theorem scanFlags_of_selected {s : State} {i : Instr} {st : ScanState} (run : Running s st) (scanning : st ≠ .re)
    (op : selected s = i) (event_free : i ≠ .ovfDiscard) : ScanFlags s (consumes i) := by
  obtain ⟨-, rfl⟩ := run
  exact ⟨by simp [inReady, scanning], by simp [frameReady, scanning], by simp [ovfEvent, op, event_free], by rw [take, op]⟩

/-! ### SeekingStart -/

/-- Settles O1. -/
theorem waitSsChangesNothing : Obligations.WaitSsChangesNothing := by
  intro s run idle
  have op := selected_waitSs run.1 run.2 idle
  exact ⟨op, exec_waitSs s, scanFlags_of_selected run nofun op nofun, rfl⟩

/-- Settles O2. -/
theorem ssMissDropsByteAndRestarts : Obligations.SsMissDropsByteAndRestarts := by
  intro s b run byte miss
  have op : selected s = .ssMiss := by rw [selected_ss run.1 run.2 byte, if_neg miss]
  exact ⟨op, exec_ssMiss byte, scanFlags_of_selected run nofun op nofun, fun _ => rfl⟩

/-- Settles O3: the byte is the one that comes after the stored part of the start signature. -/
theorem ssHitStoresAtStartIndex : Obligations.SsHitStoresAtStartIndex := by
  intro s b wf run byte hit more
  have hcap := sixteen_le_cap_of_wf wf
  have within : s.sidx.toNat < 8 := lt_of_getElem?_some hit
  have hne : s.sidx.toNat ≠ 7 := fun h => more (BitVec.eq_of_toNat_eq h)
  have hsucc : (s.sidx + 1).toNat = s.sidx.toNat + 1 := by bv_omega
  have op : selected s = .ssHit := by rw [selected_ss run.1 run.2 byte, if_pos hit, if_neg more]
  refine ⟨by omega, op, ⟨_, exec_ssHit byte (by omega), rfl, hsucc, fun canonical stored => ?_⟩,
    scanFlags_of_selected run nofun op nofun, fun _ => rfl⟩
  have grown := readBytes_write_next canonical stored hit
  rw [Nat.zero_add] at grown
  simp only [hsucc]
  exact grown

/-- Settles O4: the byte is the last one of the start signature. -/
theorem ssOpenOpensFrame : Obligations.SsOpenOpensFrame := by
  rintro s _ wf run byte last rfl
  have hcap := sixteen_le_cap_of_wf wf
  have hit : startSig[s.sidx.toNat]? = some 0x01 := by rw [last]; rfl
  have op : selected s = .ssOpen := by rw [selected_ss run.1 run.2 byte, if_pos hit, if_pos last]
  exact ⟨op, ⟨_, exec_ssOpen byte (by omega), rfl, fun canonical stored => readBytes_write_next canonical stored rfl⟩,
    scanFlags_of_selected run nofun op nofun, fun _ => rfl⟩

/-! ### SeekingEnd -/

/-- Settles O5. -/
theorem waitSeChangesNothing : Obligations.WaitSeChangesNothing := by
  intro s run idle
  have op := selected_waitSe run.1 run.2 idle
  exact ⟨op, exec_waitSe s, scanFlags_of_selected run nofun op nofun, rfl⟩

/-- The row of a byte that finds no room, in the trailer phase or outside it (R83). -/
theorem selected_se_of_full {s : State} {b : Byte} (run : Running s .se) (byte : offered s = some b)
    (full : s.wptr = s.cfg.cap) : selected s = .ovfDiscard := by
  rw [selected_se run.1 run.2 byte, if_pos full]

/-- The rows of SeekingEnd that append outside the trailer phase (R71 to R73). -/
theorem selected_se_of_open {s : State} {b : Byte} (run : Running s .se) (byte : offered s = some b)
    (room : s.wptr < s.cfg.cap) (open_ : s.eidx ≠ 5) :
    selected s = if endSig[s.eidx.toNat]? = some b then (if s.eidx = 4 then .seClose else .seHit) else .seMiss := by
  rw [selected_se run.1 run.2 byte, if_neg room.ne, if_neg open_]

/-- The rows of the trailer phase that append, whatever the byte is (R74, R75). -/
theorem selected_se_of_trailer {s : State} {b : Byte} (run : Running s .se) (byte : offered s = some b)
    (room : s.wptr < s.cfg.cap) (trl : s.eidx = 5) : selected s = if s.tcnt = 2 then .trLast else .trByte := by
  rw [selected_se run.1 run.2 byte, if_neg room.ne, if_pos trl]

/-- Settles O6. -/
theorem seMissAppendsAndRestartsEnd : Obligations.SeMissAppendsAndRestartsEnd := by
  intro s b run byte room within miss
  have op : selected s = .seMiss := by rw [selected_se_of_open run byte room (by bv_omega), if_neg miss]
  exact ⟨op, exec_seMiss byte room, scanFlags_of_selected run nofun op nofun, fun _ => rfl⟩

theorem endSig_of_lt_four : ∀ i < 4, endSig[i]? = some 0x1B := by decide

/-- Settles O7. -/
theorem seHitAppendsAndCounts : Obligations.SeHitAppendsAndCounts := by
  intro s b run byte room within hit
  have hb : b = 0x1B := Option.some.inj (hit.symm.trans (endSig_of_lt_four _ within))
  have hsucc : (s.eidx + 1).toNat = s.eidx.toNat + 1 := by bv_omega
  have op : selected s = .seHit := by
    rw [selected_se_of_open run byte room (by bv_omega), if_pos hit, if_neg (by bv_omega)]
  exact ⟨hb, op, ⟨_, exec_seHit byte room, rfl, hsucc⟩, scanFlags_of_selected run nofun op nofun, fun _ => rfl⟩

/-- Settles O8: in a full buffer the row of the next byte is OVF.DISCARD, in the trailer phase as well (R83). -/
theorem seCloseBeginsTrailer : Obligations.SeCloseBeginsTrailer := by
  rintro s _ run byte room last rfl
  have hit : endSig[s.eidx.toNat]? = some 0x1A := by rw [last]; rfl
  have op : selected s = .seClose := by
    rw [selected_se_of_open run byte room (by rw [last]; decide), if_pos hit, if_pos last]
  exact ⟨op, ⟨_, exec_seClose byte room, rfl, trl_iff.2 ⟨run.2, rfl⟩,
      fun full c => selected_se_of_full ⟨rfl, run.2⟩ (offered_offerByte _ c) full⟩,
    scanFlags_of_selected run nofun op nofun, fun _ => rfl⟩

/-- Settles O9. -/
theorem trByteAppendsUnchecked : Obligations.TrByteAppendsUnchecked := by
  intro s b run byte room trl more
  have hsucc : (s.tcnt + 1).toNat = s.tcnt.toNat + 1 := by bv_omega
  have op : selected s = .trByte := by rw [selected_se_of_trailer run byte room trl, if_neg (by bv_omega)]
  exact ⟨op, ⟨_, exec_trByte byte room, rfl, hsucc⟩, scanFlags_of_selected run nofun op nofun, fun _ => rfl⟩

/-- Settles O10. -/
theorem trLastCompletesFrame : Obligations.TrLastCompletesFrame := by
  intro s b run byte room trl last
  have op : selected s = .trLast := by rw [selected_se_of_trailer run byte room trl, if_pos last]
  exact ⟨op, ⟨_, exec_trLast byte room, rfl, rfl, rfl⟩, scanFlags_of_selected run nofun op nofun, fun _ => rfl⟩

/-! ### The transition table -/

/-- Settles O24: each case of a step is in one row of the table. -/
theorem transitionTable : Obligations.TransitionTable := by
  intro s t h
  cases step_cases h with
  | reset op _ ht => simp [op, ht]
  | waitSs op _ st _ ht | ssMiss _ op _ st _ _ ht | ssHit _ op _ st _ _ _ _ ht | ssOpen _ op _ st _ _ _ _ ht
  | waitSe op _ st _ ht | seMiss _ op _ st _ _ _ _ ht | seHit _ op _ st _ _ _ _ _ ht
  | seClose _ op _ st _ _ _ _ ht | trByte _ op _ st _ _ _ _ ht | trLast _ op _ st _ _ _ _ ht
  | discard _ op _ st _ _ ht | emit op _ st _ ht => simp [op, st, ht]

end Sys2Proof.Machine
end

section
/-! PROOFS of the family 40_frame_scanner.md, runs of the Frame Scanner (R76, R78). A byte moves the start counter and the end counter on
or back to 0 (R65); what a run collects is known from its length, since the bytes collected are the last bytes delivered (R33). -/

namespace Sys2Proof.Machine

/-! ### Runs that go on -/

/-- The run of R127 goes on to its end and leaves a state with the property `P`. -/
def RunsTo (s : State) (bytes : List Byte) (P : State → Prop) : Prop := ∃ t, runHold s bytes = .next t ∧ P t

theorem RunsTo.append {s : State} {l k : List Byte} {P Q : State → Prop} (first : RunsTo s l P)
    (rest : ∀ u, P u → RunsTo u k Q) : RunsTo s (l ++ k) Q := by
  obtain ⟨u, hu, hP⟩ := first
  obtain ⟨t, ht, hQ⟩ := rest u hP
  exact ⟨t, by rw [runHold_append, hu]; exact ht, hQ⟩

theorem runHold_singleton {s : State} (st : s.st ≠ .re) (b : Byte) : runHold s [b] = byteStep s b := by
  rw [runHold_cons_of_ne st]
  cases byteStep s b <;> rfl

theorem runsTo_of_byteStep {s t : State} {b : Byte} {P : State → Prop} (st : s.st ≠ .re)
    (h : byteStep s b = .next t) (hP : P t) : RunsTo s [b] P :=
  ⟨t, (runHold_singleton st b).trans h, hP⟩

/-- What every step and every setting of the inputs keeps, a run keeps. -/
theorem runHold_keeps {P : State → Prop} (step_keeps : ∀ s t, P s → step s = .next t → P t)
    (inputs_keep : ∀ s r l, P s → P { s with rstIn := r, src := l }) {s t : State} {bytes : List Byte} (hs : P s)
    (h : runHold s bytes = .next t) : P t := by
  have byte_keeps : ∀ {s t b}, P s → byteStep s b = .next t → P t :=
    fun hs h => step_keeps _ _ (inputs_keep _ _ _ hs) h
  induction bytes generalizing s with
  | nil => rwa [next_eq_iff.1 h]
  | cons b bytes ih =>
    by_cases re : s.st = .re
    · rw [runHold_cons_of_re re] at h
      obtain ⟨e, he, h⟩ := andThen_eq_next.1 h
      obtain ⟨u, hu, h⟩ := andThen_eq_next.1 h
      exact ih (byte_keeps (step_keeps _ _ (inputs_keep _ _ _ hs) he) hu) h
    · rw [runHold_cons_of_ne re] at h
      obtain ⟨u, hu, h⟩ := andThen_eq_next.1 h
      exact ih (byte_keeps hs hu) h

theorem BlockInv.runHold {s t : State} {bytes : List Byte} (inv : BlockInv s) (h : runHold s bytes = .next t) :
    BlockInv t :=
  runHold_keeps everyStepKeepsInvariants (fun _ r l inv => inv.withInputs r l) inv h

/-! ### The start signature -/

/-- The start counter after a byte (R67 to R69): a byte that does not continue the signature is not tried as its first (R65). -/
def startAfter (i : Nat) (b : Byte) : Nat := if startSig[i]? = some b then i + 1 else 0

theorem startAfter_le (i : Nat) (b : Byte) : startAfter i b ≤ i + 1 := by
  unfold startAfter
  split <;> omega

/-- The start counter of a part with the parameters `c` is at `i`; at 8 the frame is open and holds the start signature only. -/
structure StartAt (c : Config) (i : Nat) (s : State) : Prop where
  cfg : s.cfg = c
  sidx : s.sidx.toNat = i
  seeking : i < 8 → s.st = .ss
  opened : i = 8 → s.st = .se ∧ s.wptr = 8

section
variable {c : Config} {i : Nat} {s : State}

theorem StartAt.byte (start : StartAt c i s) (hi : i < 8) (hcap : 8 ≤ c.cap) (b : Byte) :
    RunsTo s [b] (StartAt c (startAfter i b)) := by
  obtain ⟨rfl, rfl, seeking, -⟩ := start
  have st := seeking hi
  have not_re : s.st ≠ .re := by rw [st]; nofun
  unfold startAfter
  split_ifs with hit
  · by_cases last : s.sidx = 7
    · rw [last] at hit ⊢
      obtain rfl : 0x01 = b := Option.some.inj hit
      exact runsTo_of_byteStep not_re (byteStep_ssOpen st last hcap) ⟨rfl, rfl, nofun, fun _ => ⟨rfl, rfl⟩⟩
    · have hne : s.sidx.toNat ≠ 7 := fun h => last (BitVec.eq_of_toNat_eq h)
      have hsucc : (s.sidx + 1).toNat = s.sidx.toNat + 1 := by bv_omega
      exact runsTo_of_byteStep not_re (byteStep_ssHit st hit last (by omega)) ⟨rfl, hsucc, fun _ => st, by omega⟩
  · exact runsTo_of_byteStep not_re (byteStep_ssMiss st hit) ⟨rfl, rfl, fun _ => st, nofun⟩

/-- No frame opens before the last byte of a stretch that is too short for more. -/
theorem StartAt.bytes (start : StartAt c i s) (hcap : 8 ≤ c.cap) {l : List Byte} (short : i + l.length ≤ 8) :
    RunsTo s l (StartAt c (l.foldl startAfter i)) := by
  induction l generalizing i s with
  | nil => exact ⟨s, rfl, start⟩
  | cons b l ih =>
    rw [List.length_cons] at short
    have next_le := startAfter_le i b
    exact (start.byte (by omega) hcap b).append fun u hu => ih hu (by omega)

theorem startAfter_1B : ∀ i < 5, startAfter i 0x1B = (i + 1) % 5 := by decide

/-- R76: the fifth `1B` puts the start counter back to 0. -/
theorem StartAt.run_1B (start : StartAt c 0 s) (hcap : 8 ≤ c.cap) (n : Nat) :
    RunsTo s (List.replicate n 0x1B) (StartAt c (n % 5)) := by
  induction n with
  | zero => exact ⟨s, rfl, start⟩
  | succ n ih =>
    rw [List.replicate_succ', ← Nat.mod_add_mod, ← startAfter_1B _ (Nat.mod_lt n (by decide))]
    exact ih.append fun u hu => hu.byte (by omega) hcap 0x1B

/-- R76: only four bytes `1B` are continued by the second half of the start signature. -/
theorem start_second_half : ∀ i < 5, [0x01, 0x01, 0x01, 0x01].foldl startAfter i = if i = 4 then 8 else 0 := by decide

theorem StartAt.run_1B_open (start : StartAt c 0 s) (hcap : 8 ≤ c.cap) (n : Nat) :
    RunsTo s (List.replicate n 0x1B ++ [0x01, 0x01, 0x01, 0x01]) (StartAt c (if n % 5 = 4 then 8 else 0)) := by
  have hlt : n % 5 < 5 := Nat.mod_lt n (by decide)
  rw [← start_second_half _ hlt]
  exact (start.run_1B hcap n).append fun u hu => hu.bytes hcap (show n % 5 + 4 ≤ 8 by omega)

end

theorem startAt_resetWith (c : Config) : StartAt c 0 (State.resetWith c) := ⟨rfl, rfl, fun _ => rfl, nofun⟩

/-! ### The open frame -/

/-- The end counter after a byte outside the trailer phase (R71 to R73). -/
def endAfter (i : Nat) (b : Byte) : Nat := if endSig[i]? = some b then i + 1 else 0

/-- A frame of a part with the parameters `c` is open, with `w` bytes collected and the trailer counter at `k`. -/
structure InFrame (c : Config) (w : Nat) (k : BitVec 2) (s : State) : Prop where
  cfg : s.cfg = c
  st : s.st = .se
  wptr : s.wptr = w
  tcnt : s.tcnt = k

section
variable {c : Config} {w : Nat} {k : BitVec 2} {s : State}

theorem InFrame.not_re (frame : InFrame c w k s) : s.st ≠ .re := by
  rw [frame.st]
  nofun

/-- A byte outside the trailer phase. -/
theorem InFrame.byte (frame : InFrame c w k s) (room : w < c.cap) (open_ : s.eidx ≠ 5) (b : Byte) :
    RunsTo s [b] fun t => InFrame c (w + 1) k t ∧ t.eidx.toNat = endAfter s.eidx.toNat b := by
  have not_re := frame.not_re
  obtain ⟨rfl, st, rfl, rfl⟩ := frame
  unfold endAfter
  split_ifs with hit
  · by_cases last : s.eidx = 4
    · rw [last] at hit ⊢
      obtain rfl : 0x1A = b := Option.some.inj hit
      exact runsTo_of_byteStep not_re (byteStep_seClose st room last) ⟨⟨rfl, st, rfl, rfl⟩, rfl⟩
    · have hlt : s.eidx.toNat < 5 := lt_of_getElem?_some hit
      have hsucc : (s.eidx + 1).toNat = s.eidx.toNat + 1 := by bv_omega
      exact runsTo_of_byteStep not_re (byteStep_seHit st room hit last) ⟨⟨rfl, st, rfl, rfl⟩, hsucc⟩
  · exact runsTo_of_byteStep not_re (byteStep_seMiss st room open_ hit) ⟨⟨rfl, st, rfl, rfl⟩, rfl⟩

theorem endAfter_1B : ∀ i < 5, endAfter i 0x1B = (i + 1) % 5 := by decide

/-- R76: the fifth `1B` puts the end counter back to 0. -/
theorem InFrame.run_1B (frame : InFrame c w k s) (h0 : s.eidx = 0) {n : Nat} (room : w + n ≤ c.cap) :
    RunsTo s (List.replicate n 0x1B) fun t => InFrame c (w + n) k t ∧ t.eidx.toNat = n % 5 := by
  induction n with
  | zero => exact ⟨s, rfl, frame, by rw [h0]; rfl⟩
  | succ n ih =>
    have hlt : n % 5 < 5 := Nat.mod_lt n (by decide)
    rw [List.replicate_succ', ← Nat.mod_add_mod, ← endAfter_1B _ hlt]
    refine (ih (by omega)).append fun u ⟨frame, he⟩ => ?_
    rw [← he]
    exact frame.byte (by omega) (by bv_omega) 0x1B

theorem endAfter_1A : ∀ i < 5, endAfter i 0x1A = if i = 4 then 5 else 0 := by decide

theorem InFrame.run_1B_close (frame : InFrame c w k s) (h0 : s.eidx = 0) {n : Nat} (room : w + n + 1 ≤ c.cap) :
    RunsTo s (List.replicate n 0x1B ++ [0x1A]) fun t =>
      InFrame c (w + n + 1) k t ∧ t.eidx.toNat = if n % 5 = 4 then 5 else 0 := by
  have hlt : n % 5 < 5 := Nat.mod_lt n (by decide)
  rw [← endAfter_1A _ hlt]
  refine (frame.run_1B h0 (by omega)).append fun u ⟨frame, he⟩ => ?_
  rw [← he]
  exact frame.byte room (by bv_omega) 0x1A

/-- A byte of the trailer phase before the last one (R74). -/
theorem InFrame.trailer_byte (frame : InFrame c w k s) (h5 : s.eidx = 5) (room : w < c.cap) (more : k ≠ 2) (b : Byte) :
    RunsTo s [b] fun t => InFrame c (w + 1) (k + 1) t ∧ t.eidx = 5 := by
  have not_re := frame.not_re
  obtain ⟨rfl, st, rfl, rfl⟩ := frame
  exact runsTo_of_byteStep not_re (byteStep_trByte st room h5 more) ⟨⟨rfl, st, rfl, rfl⟩, h5⟩

/-- The three bytes of the trailer phase, whatever they are, complete the frame (R74, R75). -/
theorem InFrame.trailer (frame : InFrame c w 0 s) (h5 : s.eidx = 5) (room : w + 3 ≤ c.cap) (x y z : Byte) :
    RunsTo s [x, y, z] fun t => t.st = .re ∧ t.wptr = w + 3 := by
  refine (frame.trailer_byte h5 (by omega) (by decide) x).append (k := [y, z]) fun u ⟨frame, h5⟩ => ?_
  refine (frame.trailer_byte h5 (by omega) (by decide) y).append (k := [z]) fun v ⟨frame, h5⟩ => ?_
  have not_re := frame.not_re
  obtain ⟨rfl, st, hw, last⟩ := frame
  exact runsTo_of_byteStep not_re (byteStep_trLast st (by omega) h5 last) ⟨rfl, by simp [hw]⟩

end

/-- The end signature is a run of four `1B` and its `1A`, and the trailer follows it. -/
theorem InFrame.run_end_trailer {c : Config} {w : Nat} {s : State} (frame : InFrame c w 0 s) (h0 : s.eidx = 0)
    (room : w + 5 + 3 ≤ c.cap) (x y z : Byte) :
    RunsTo s (endSig ++ [x, y, z]) fun t => t.st = .re ∧ t.wptr = w + 5 + 3 :=
  (frame.run_1B_close (n := 4) h0 (by omega)).append fun _ ⟨frame, he⟩ =>
    frame.trailer (BitVec.eq_of_toNat_eq he) room x y z

/-- Settles O54: the counter after the run of `1B` is `n` mod 5, and the bytes after it go on from 4 only. -/
theorem runLengthLaw : Obligations.RunLengthLaw := by
  refine ⟨fun s n wf st h0 => ?_, fun s n st h0 room => ?_⟩
  · have hcap := sixteen_le_cap_of_wf wf
    have start : StartAt s.cfg 0 s := ⟨rfl, by rw [h0]; rfl, fun _ => st, nofun⟩
    obtain ⟨t, ht, -, sidx, seeking, opened⟩ := start.run_1B_open (by omega) n
    refine ⟨t, ht, fun four => ?_, fun other => ?_⟩
    · rw [if_pos four] at sidx opened
      obtain ⟨st, hw⟩ := opened rfl
      exact ⟨st, BitVec.eq_of_toNat_eq sidx, hw⟩
    · rw [if_neg other] at sidx seeking
      exact ⟨seeking (by decide), BitVec.eq_of_toNat_eq sidx⟩
  · have frame : InFrame s.cfg s.wptr s.tcnt s := ⟨rfl, st, rfl, rfl⟩
    obtain ⟨t, ht, ⟨-, st, hw, -⟩, he⟩ := frame.run_1B_close h0 room
    refine ⟨t, ht, st, hw, fun four => ?_, fun other => ?_⟩
    · rw [if_pos four] at he
      exact BitVec.eq_of_toNat_eq he
    · rw [if_neg other] at he
      exact BitVec.eq_of_toNat_eq he

/-! ### Payloads in which the end signature is not matched -/

theorem EndNotReached.eidx_ne {s : State} {l : List Byte} (h : EndNotReached s l) : s.eidx ≠ 5 :=
  h [] s List.nil_prefix rfl

theorem EndNotReached.after {s u : State} {l k : List Byte} (h : EndNotReached s (l ++ k))
    (hu : runHold s l = .next u) : EndNotReached u k := fun p v hp hv =>
  h (l ++ p) v ((List.prefix_append_right_inj l).2 hp) (by rw [runHold_append, hu]; exact hv)

/-- Each byte of such a payload is appended (R71, R72). -/
theorem InFrame.payload {c : Config} {w : Nat} {k : BitVec 2} {s : State} {payload : List Byte}
    (frame : InFrame c w k s) (open_ : EndNotReached s payload) (room : w + payload.length ≤ c.cap) :
    RunsTo s payload (InFrame c (w + payload.length) k) := by
  induction payload generalizing s w with
  | nil => exact ⟨s, rfl, frame⟩
  | cons b l ih =>
    rw [List.length_cons] at room ⊢
    obtain ⟨u, hu, grown, -⟩ := frame.byte (by omega) open_.eidx_ne b
    have rest := ih grown (open_.after (l := [b]) hu) (by omega)
    rw [Nat.add_right_comm] at rest
    exact RunsTo.append (l := [b]) ⟨u, hu, rfl⟩ fun v hv => hv ▸ rest

/-- Only TR.LAST ends in ReadyToEmit (R77), and its row asks for the trailer phase (R75). -/
theorem eidx_of_step_to_re {s t : State} (h : step s = .next t) (re : t.st = .re) : s.eidx = 5 := by
  cases step_cases h with
  | trLast _ _ _ _ _ _ trl => exact trl
  | reset _ _ ht | ssOpen _ _ _ _ _ _ _ _ ht | discard _ _ _ _ _ _ ht | emit _ _ _ _ ht => rw [ht] at re; cases re
  | waitSs _ _ st _ ht | ssMiss _ _ _ st _ _ ht | ssHit _ _ _ st _ _ _ _ ht | waitSe _ _ st _ ht
  | seMiss _ _ _ st _ _ _ _ ht | seHit _ _ _ st _ _ _ _ _ ht | seClose _ _ _ st _ _ _ _ ht
  | trByte _ _ _ st _ _ _ _ ht =>
    rw [ht] at re
    exact absurd (st.symm.trans re) nofun

theorem not_re_of_endNotReached {s t : State} {bytes : List Byte} (st : s.st ≠ .re) (open_ : EndNotReached s bytes)
    (h : runHold s bytes = .next t) : t.st ≠ .re := by
  induction bytes generalizing s with
  | nil => rwa [next_eq_iff.1 h]
  | cons b l ih =>
    rw [runHold_cons_of_ne st] at h
    obtain ⟨u, hu, h⟩ := andThen_eq_next.1 h
    have hu_re : u.st ≠ .re := fun re => open_.eidx_ne (eidx_of_step_to_re (s := offerByte s b) hu re)
    exact ih hu_re (open_.after (l := [b]) ((runHold_singleton st b).trans hu)) h

/-! ### What a run from reset has stored -/

/-- When as many bytes are collected as were delivered since reset, they are those bytes (R33). -/
theorem readBytes_of_collected_all {c : Config} {l k r : List Byte} {t : State} (wf : c.wf = true)
    (h : runHold (State.resetWith c) (l ++ k ++ r) = .next t) (st : t.st ≠ .ss) (all : t.wptr = (l ++ k ++ r).length) :
    readBytes t.buf l.length k.length = k := by
  have image := collectedBytesAreTheWireImage c _ t wf h st
  have stored : readBytes t.buf 0 t.wptr = l ++ k ++ r := image.eq_of_length (by rw [frameBytes, readBytes_length, all])
  rw [all, List.length_append, List.length_append, readBytes_add, readBytes_add, Nat.zero_add] at stored
  obtain ⟨front, -⟩ := List.append_inj stored (by simp)
  exact (List.append_inj front (readBytes_length _ _ _)).2

theorem start_full : startSig.foldl startAfter 0 = 8 := by decide

/-- The start signature and a payload, from reset. -/
theorem run_start_payload {c : Config} {payload : List Byte} (wf : c.wf = true) (room : 8 + payload.length ≤ c.cap)
    (open_ : EndNotReached (State.resetWith c) (startSig ++ payload)) :
    RunsTo (State.resetWith c) (startSig ++ payload) fun t => InFrame c (8 + payload.length) t.tcnt t := by
  have hcap := sixteen_le_cap_of_wf wf
  obtain ⟨u, hu, start⟩ := (startAt_resetWith c).bytes (l := startSig) (by omega) (by decide)
  obtain ⟨st, hw⟩ := start.opened start_full
  have frame : InFrame c 8 u.tcnt u := ⟨start.cfg, st, hw, rfl⟩
  obtain ⟨t, ht, frame'⟩ := frame.payload (open_.after hu) room
  exact ⟨t, by rw [runHold_append, hu]; exact ht, { frame' with tcnt := rfl }⟩

theorem frame_eq (payload : List Byte) (x y z : Byte) :
    frame payload x y z = startSig ++ payload ++ (endSig ++ [x, y, z]) :=
  List.append_assoc _ _ _

theorem start_prefix : ∀ k < 8, (startSig.take k).foldl startAfter 0 = k := by decide

/-- Settles O55: (a) every byte of the payload is appended and none completes a frame, (b) the end signature and the trailer
complete one, (c) the byte puts the start counter back to 0. -/
theorem scannerProperties : Obligations.ScannerProperties := by
  refine ⟨fun c payload wf room open_ => ?_, fun c payload x y z u wf room open_ hu h0 => ?_, fun c k b wf hk miss => ?_⟩
  · obtain ⟨t, ht, frame⟩ := run_start_payload wf room open_
    refine ⟨t, ht, frame.st, frame.wptr, ?_, fun p v hp hv => ?_⟩
    · refine readBytes_of_collected_all (l := startSig) (r := []) wf (by rwa [List.append_nil]) (by rw [frame.st]; nofun) ?_
      rw [List.append_nil, List.length_append]
      exact frame.wptr
    · exact not_re_of_endNotReached (nofun : ScanState.ss ≠ .re) (fun q w hq => open_ q w (hq.trans hp)) hv
  · obtain ⟨u', hu', frame⟩ := run_start_payload wf (by omega) open_
    obtain rfl : u' = u := next_eq_iff.1 (hu.symm.trans hu')
    have inv : BlockInv u' := (resetStateMeetsInvariants.1 c wf).runHold hu
    have tcnt : u'.tcnt = 0 := (inv.se frame.st).tcnt_eq_zero (by rw [h0]; decide)
    rw [tcnt] at frame
    obtain ⟨t, ht, re, hw⟩ := RunsTo.append ⟨u', hu, rfl⟩ fun v hv => hv ▸ frame.run_end_trailer h0 room x y z
    refine ⟨t, by rwa [frame_eq], re, hw, readBytes_of_collected_all wf ht (by rw [re]; nofun) ?_⟩
    rw [hw, List.length_append, List.length_append]
    rfl
  · have hcap := sixteen_le_cap_of_wf wf
    have short : 0 + (startSig.take k ++ [b]).length ≤ 8 := by simp; omega
    obtain ⟨t, ht, start⟩ := (startAt_resetWith c).bytes (by omega) short
    rw [List.foldl_append, start_prefix k hk] at start
    obtain ⟨-, sidx, seeking, -⟩ : StartAt c 0 t := by simpa [startAfter, miss] using start
    have st := seeking (by decide)
    exact ⟨t, ht, st, BitVec.eq_of_toNat_eq sidx, (((resetStateMeetsInvariants.1 c wf).runHold ht).ss st).wptr⟩

end Sys2Proof.Machine
end

section
/-! PROOFS of the family 41_frame_buffer.md. The Frame Buffer's boundary check comes before the store (R80): a byte that finds no room is
the Overflow event (R83), and a byte that finds room changes one address of the buffer (R81). -/

namespace Sys2Proof.Machine

/-! ### The rows that take a byte in SeekingEnd -/

/-- The rows 7 to 12 of R48 are rows of SeekingEnd with `rst` low and a byte on offer. -/
theorem running_se_of_selected {s : State} (row : selected s = .ovfDiscard ∨ selected s = .seMiss ∨ selected s = .seHit ∨
    selected s = .seClose ∨ selected s = .trByte ∨ selected s = .trLast) :
    Running s .se ∧ ∃ b, offered s = some b := by
  have takes : take s = true := by
    unfold take
    rcases row with op | op | op | op | op | op <;> rw [op] <;> rfl
  obtain ⟨rst, ⟨b, byte⟩, ss | se⟩ := take_iff.1 takes
  · rw [selected_ss rst ss byte] at row
    split_ifs at row <;> simp at row
  · exact ⟨⟨rst, se⟩, b, byte⟩

/-- Settles O31: on a full buffer the row would be OVF.DISCARD, which is none of the five. -/
theorem appendChecksTheBoundary : Obligations.AppendChecksTheBoundary := by
  refine ⟨fun s b rest => ⟨fun full => append_of_full full b rest, fun room => append_of_room room b rest⟩,
    fun s bound row => lt_of_le_of_ne bound fun full => ?_, fun _ _ byte => exec_ovfDiscard byte⟩
  obtain ⟨run, b, byte⟩ := running_se_of_selected (.inr row)
  rw [selected_se_of_full run byte full] at row
  simp at row

/-! ### The Overflow event and Clear -/

/-- Settles O11: the discarded state is the reset state but for the registers, and the count saturates (R19). -/
theorem ovfDiscardDropsFrameAndCounts : Obligations.OvfDiscardDropsFrameAndCounts := by
  refine ⟨fun s b run byte full => ?_, fun s op => (running_se_of_selected (.inl op)).1⟩
  have op := selected_se_of_full run byte full
  exact ⟨op, ⟨_, exec_ovfDiscard byte, rfl, sat32_toNat _⟩, by simp [inReady, run.2], by simp [frameReady, run.2],
    by simp [ovfEvent, op], by rw [take, op]; rfl, fun _ => rfl⟩

/-- Settles O32: an address that is not listed reads 00 (log 9). -/
theorem clearEmptiesBufferAndCounters : Obligations.ClearEmptiesBufferAndCounters :=
  fun _ => ⟨fun a => Memory.read_nil a, rfl⟩

/-! ### What a store leaves as it was -/

/-- Settles O38: the two operations store one byte each, at the start index and at 7. -/
theorem frameOfStartStores : Obligations.FrameOfStartStores := by
  refine fun s t => ⟨fun h => ?_, fun h => ?_⟩
  · obtain ⟨b, -, -, rfl⟩ := exec_ssHit_next.1 h
    exact ⟨fun a other => Memory.read_write_ne _ _ _ _ other, rfl, rfl, rfl, rfl, rfl, rfl, rfl, rfl, rfl⟩
  · obtain ⟨b, -, -, rfl⟩ := exec_ssOpen_next.1 h
    exact ⟨fun a other => Memory.read_write_ne _ _ _ _ other, rfl, rfl, rfl, rfl, rfl, rfl, rfl⟩

/-- The five operations that append (R80), in the form their inversions have, where there is room. -/
theorem after_of_append {s t : State} {after : Byte → State}
    (h : ∃ b, offered s = some b ∧
      ((s.wptr = s.cfg.cap ∧ t = discardFrame (dropByte s)) ∨ (s.wptr < s.cfg.cap ∧ t = after b)))
    (not_full : s.wptr ≠ s.cfg.cap) : ∃ b, t = after b := by
  obtain ⟨b, -, ⟨full, -⟩ | ⟨-, ht⟩⟩ := h
  · exact absurd full not_full
  · exact ⟨b, ht⟩

/-- With room, an operation does beside the append only what is its own (R71 to R75): the SE operations set the end counter, TR.BYTE the
trailer counter, TR.LAST the trailer counter and the scan state. -/
theorem exec_append_next_of_room {i : Instr} {s t : State}
    (hi : i = .seMiss ∨ i = .seHit ∨ i = .seClose ∨ i = .trByte ∨ i = .trLast) (h : exec i s = .next t)
    (not_full : s.wptr ≠ s.cfg.cap) :
    ∃ b st' e c, t = { appended s b with st := st', eidx := e, tcnt := c } ∧
      (i = .seMiss ∨ i = .seHit ∨ i = .seClose → st' = s.st ∧ c = s.tcnt) ∧
      (i = .trByte → st' = s.st) ∧ (i = .trByte ∨ i = .trLast → e = s.eidx) := by
  rcases hi with rfl | rfl | rfl | rfl | rfl
  · obtain ⟨b, rfl⟩ := after_of_append (exec_seMiss_next.1 h) not_full
    exact ⟨b, _, _, _, rfl, fun _ => ⟨rfl, rfl⟩, nofun, by simp⟩
  · obtain ⟨b, rfl⟩ := after_of_append (exec_seHit_next.1 h) not_full
    exact ⟨b, _, _, _, rfl, fun _ => ⟨rfl, rfl⟩, nofun, by simp⟩
  · obtain ⟨b, rfl⟩ := after_of_append (exec_seClose_next.1 h) not_full
    exact ⟨b, _, _, _, rfl, fun _ => ⟨rfl, rfl⟩, nofun, by simp⟩
  · obtain ⟨b, rfl⟩ := after_of_append (exec_trByte_next.1 h) not_full
    exact ⟨b, _, _, _, rfl, by simp, fun _ => rfl, fun _ => rfl⟩
  · obtain ⟨b, rfl⟩ := after_of_append (exec_trLast_next.1 h) not_full
    exact ⟨b, _, _, _, rfl, by simp, nofun, fun _ => rfl⟩

/-- With no room, an operation that appends is OVF.DISCARD, with a byte on offer or without (the model's choice, log 15 and log 6). -/
theorem exec_append_eq_ovfDiscard_of_full {i : Instr} {s : State}
    (hi : i = .seMiss ∨ i = .seHit ∨ i = .seClose ∨ i = .trByte ∨ i = .trLast) (full : s.wptr = s.cfg.cap) :
    exec i s = exec .ovfDiscard s := by
  rcases ho : offered s with _ | b
  · rcases hi with rfl | rfl | rfl | rfl | rfl <;>
      simp only [exec, execSeMiss, execSeHit, execSeClose, execTrByte, execTrLast, execOvfDiscard, withByte_none ho]
  · rw [exec_append_of_full ho full hi, exec_ovfDiscard ho]

/-- Settles O39: with room the one address that is written is the cursor. -/
theorem frameOfAppendingOperations : Obligations.FrameOfAppendingOperations := by
  refine fun i s t hi h => ⟨fun not_full => ?_, fun full => (exec_append_eq_ovfDiscard_of_full hi full).symm.trans h⟩
  obtain ⟨b, st', e, c, rfl, by_se, by_trByte, by_tr⟩ := exec_append_next_of_room hi h not_full
  exact ⟨fun a other => Memory.read_write_ne _ _ _ _ other, rfl, rfl, rfl, rfl, rfl, rfl, by_se, by_trByte, by_tr⟩

end Sys2Proof.Machine
end

section
/-! PROOFS of the family 42_register_extractor.md. A signature matches where its bytes stand (R92); the loop of `Extract` ends with the
value at the greatest match in range and, with no match, with the old value (R91, R97, R98), and the other statements follow from that
closed form. -/

namespace Sys2Proof.Machine

/-! ### Match -/

/-- Settles O46. -/
theorem matchIsByteEquality : Obligations.MatchIsByteEquality :=
  fun m sig o => matchAt_iff.trans (readBytes_eq_iff m o sig)

/-! ### The closed form of the loop -/

/-- R93: an offset is tried when the signature and its value fit into the frame. -/
theorem lt_offsetCount_iff {sigLen len o : Nat} : o < offsetCount sigLen len ↔ o + (sigLen + 8) ≤ len := by
  unfold offsetCount
  omega

/-- With no match in range the old value stays (R98). -/
theorem scanField_of_no_match {m : Memory} {sig : List Byte} {len : Nat} (old : Word)
    (unmatched : ∀ o, o + (sig.length + 8) ≤ len → matchAt m sig o = false) : scanField m sig len old = old := by
  refine List.foldlRecOn (motive := (· = old)) _ _ rfl fun r kept o inRange => ?_
  rw [unmatched o (lt_offsetCount_iff.1 (List.mem_range.1 inRange))]
  exact kept

/-- Either no offset in range matches, or one of those that match is the greatest (R91). -/
theorem no_match_or_greatest (m : Memory) (sig : List Byte) (len : Nat) :
    (∀ o, o + (sig.length + 8) ≤ len → matchAt m sig o = false) ∨
    ∃ o, o + (sig.length + 8) ≤ len ∧ matchAt m sig o = true ∧
      ∀ p, o < p → p + (sig.length + 8) ≤ len → matchAt m sig p = false := by
  by_cases matched : ∃ o, o + (sig.length + 8) ≤ len ∧ matchAt m sig o = true
  · obtain ⟨o, fits, found⟩ := matched
    obtain ⟨fits', found'⟩ :=
      Nat.findGreatest_spec (P := fun p => p + (sig.length + 8) ≤ len ∧ matchAt m sig p = true)
        (show o ≤ len by omega) ⟨fits, found⟩
    refine .inr ⟨_, fits', found', fun p later hp => Bool.eq_false_iff.2 fun h => ?_⟩
    exact Nat.findGreatest_is_greatest later (by omega) ⟨hp, h⟩
  · exact .inl fun o fits => Bool.eq_false_iff.2 fun found => matched ⟨o, fits, found⟩

/-- R91, with the length of the signature as a number: the two cases of the closed form. -/
theorem scanField_closed_form {sig : List Byte} {n : Nat} (length : sig.length = n) (m : Memory) (len : Nat) (old : Word) :
    ((∀ o, o + (n + 8) ≤ len → matchAt m sig o = false) → scanField m sig len old = old) ∧
    ∀ o, o + (n + 8) ≤ len → matchAt m sig o = true →
      (∀ p, o < p → p + (n + 8) ≤ len → matchAt m sig p = false) → scanField m sig len old = memRead8 m (o + n) := by
  subst length
  exact ⟨scanField_of_no_match old, fun _ => scanField_of_last_match old⟩

/-- Settles O47: the two signatures, with their lengths of R3, are one case. -/
theorem extractTakesGreatestMatch : Obligations.ExtractTakesGreatestMatch := by
  intro c m len a1 a2 wf
  obtain ⟨length1, length2⟩ := fsig_lengths wf
  obtain ⟨keeps1, takes1⟩ := scanField_closed_form length1 m len a1
  obtain ⟨keeps2, takes2⟩ := scanField_closed_form length2 m len a2
  exact ⟨length1, length2, keeps1, takes1, keeps2, takes2⟩

/-! ### What the loop depends on -/

theorem readBytes_congr {m m' : Memory} {p n : Nat} (same : ∀ a, a < p + n → m.read a = m'.read a) :
    readBytes m p n = readBytes m' p n :=
  List.map_congr_left fun _ hi => same _ (Nat.add_lt_add_left (List.mem_range.1 hi) p)

theorem matchAt_congr {m m' : Memory} {sig : List Byte} {o : Nat}
    (same : ∀ a, a < o + sig.length → m.read a = m'.read a) : matchAt m sig o = matchAt m' sig o := by
  rw [Bool.eq_iff_iff, matchAt_iff, matchAt_iff, readBytes_congr same]

theorem memRead8_congr {m m' : Memory} {p : Nat} (same : ∀ a, a < p + 8 → m.read a = m'.read a) :
    memRead8 m p = memRead8 m' p :=
  memRead8_of_readBytes ((readBytes_congr same).trans (i64_memRead8 m' p).symm)

/-- Every round of the loop stays below the frame's length: the signature and the eight bytes after it end there at most (R93). -/
theorem scanField_congr {m m' : Memory} {len : Nat} (same : ∀ a, a < len → m.read a = m'.read a) (sig : List Byte)
    (old : Word) : scanField m sig len old = scanField m' sig len old := by
  refine List.foldl_ext _ _ _ fun r o inRange => ?_
  have fits := lt_offsetCount_iff.1 (List.mem_range.1 inRange)
  rw [matchAt_congr fun a ha => same a (by omega), memRead8_congr fun a ha => same a (by omega)]

/-- Settles O48. -/
theorem extractReadsOnlyTheFrame : Obligations.ExtractReadsOnlyTheFrame :=
  fun c _ _ _ a1 a2 same => Prod.ext (scanField_congr same (fsig1 c) a1) (scanField_congr same (fsig2 c) a2)

/-- With a match in range the old value plays no part; with none it is the result. -/
theorem scanField_scanField (m : Memory) (sig : List Byte) (len : Nat) (old : Word) :
    scanField m sig len (scanField m sig len old) = scanField m sig len old := by
  rcases no_match_or_greatest m sig len with unmatched | ⟨o, fits, found, later⟩
  · exact scanField_of_no_match _ unmatched
  · rw [scanField_of_last_match _ fits found later, scanField_of_last_match _ fits found later]

/-- Settles O49. -/
theorem extractIsIdempotent : Obligations.ExtractIsIdempotent :=
  fun c m len a1 a2 => Prod.ext (scanField_scanField m (fsig1 c) len a1) (scanField_scanField m (fsig2 c) len a2)

/-! ### The reading of a register -/

theorem signed64_eq (v : Word) :
    signed64 v = if v.toNat < 2 ^ 63 then (v.toNat : Int) else (v.toNat : Int) - 2 ^ 64 := by
  have halves : 2 * v.toNat < 2 ^ 64 ↔ v.toNat < 2 ^ 63 := by omega
  rw [signed64, BitVec.toInt_eq_toNat_cond]
  simp only [halves]
  rfl

/-- Settles O52: the range of the readings is that of 64-bit two's complement, divided by 10000. -/
theorem readingIsExactQuotient : Obligations.ReadingIsExactQuotient := by
  refine ⟨fun v => ⟨signed64_eq v, rfl, ?_, ?_⟩, ?_⟩
  · have low : -9223372036854775808 ≤ signed64 v := BitVec.le_toInt v
    exact div_le_div_of_nonneg_right (by exact_mod_cast low) (by norm_num)
  · have high : signed64 v ≤ 9223372036854775807 := Int.le_of_lt_add_one BitVec.toInt_lt
    exact div_le_div_of_nonneg_right (by exact_mod_cast high) (by norm_num)
  · have value : signed64 100000 = 100000 := by decide
    rw [readingOf, value]
    norm_num

/-! ### EMIT -/

/-- The row of R48 after a step that completes a frame (R75, R77). -/
theorem selected_after_trLast {s t : State} (op : selected s = .trLast) (h : step s = .next t) :
    selected t = if rstNow t then .reset else .emit := by
  have closed : s.st = .se ∧ t.st = .re := by simpa [op] using transitionTable s t h
  split_ifs with rst
  · exact selected_of_rst rst
  · exact selected_emit (Bool.eq_false_iff.2 rst) closed.2

/-- Settles O12: the state after EMIT is the reset state but for the registers, with the readings of the closed form of R91. -/
theorem emitExtractsAndClears : Obligations.EmitExtractsAndClears := by
  refine ⟨fun s wf run bound => ?_, fun s t => selected_after_trLast⟩
  have op := selected_emit run.1 run.2
  obtain ⟨-, -, keep1, -, keep2, -⟩ := extractTakesGreatestMatch s.cfg s.buf s.wptr s.q1 s.q2 wf
  exact ⟨op, ⟨_, exec_emit bound, rfl, rfl, rfl, keep1, keep2,
      fun short => ⟨keep1 fun o fits => by omega, keep2 fun o fits => by omega⟩⟩,
    by simp [inReady, run.2], by simp [frameReady, run.2], by simp [ovfEvent, op], by rw [take, op]; rfl⟩

end Sys2Proof.Machine
end

section
/-! PROOFS of the family 60_exceptions.md. The Overflow event is the row OVF.DISCARD (R106), which is selected in SeekingEnd on a full
buffer and nowhere else (R111); and since a step collects at most the byte it is offered, CAP bytes after a clear fill the buffer at most
(R84, R113). -/

namespace Sys2Proof.Machine

/-! ### The Overflow event -/

theorem ovfEvent_iff {s : State} :
    ovfEvent s = true ↔ rstNow s = false ∧ s.st = .se ∧ (∃ b, offered s = some b) ∧ s.wptr = s.cfg.cap := by
  rw [ovfEvent, beq_iff_eq]
  constructor
  · intro op
    obtain ⟨⟨rst, st⟩, b, byte⟩ := running_se_of_selected (.inl op)
    refine ⟨rst, st, ⟨b, byte⟩, ?_⟩
    by_contra room
    rw [selected_se rst st byte, if_neg room] at op
    split_ifs at op
  · rintro ⟨rst, st, ⟨b, byte⟩, full⟩
    exact selected_se_of_full ⟨rst, st⟩ byte full

/-- Settles O33: the state after the event is the discarded one, with the byte that found no room gone from the source (R83). -/
theorem overflowRaisedExactlyWhenFull : Obligations.OverflowRaisedExactlyWhenFull := by
  refine ⟨fun s => by rw [ovfEvent_iff, av_iff], fun s t event h => ?_⟩
  obtain ⟨rst, st, ⟨b, byte⟩, full⟩ := ovfEvent_iff.1 event
  have goes := step_of_exec (selected_se_of_full ⟨rst, st⟩ byte full) (exec_ovfDiscard byte)
  obtain rfl := next_eq_iff.1 (goes.symm.trans h)
  exact ⟨rfl, rfl, rfl, rfl, rfl, fun a => Memory.read_nil a, rfl, rfl, sat32_toNat _, elapse_src_of_offered byte _⟩

/-! ### How far Overflow events are apart -/

/-- A step collects at most the byte it is offered. -/
theorem step_collected_le {s t : State} (h : step s = .next t) :
    collected t ≤ collected s + (offered s).toList.length := by
  rcases step_collected h with none_left | ⟨-, -, kept⟩ | ⟨b, byte, -, more⟩
  · exact none_left ▸ Nat.zero_le _
  · rw [kept]
    exact Nat.le_add_right _ _
  · rw [more, byte]
    exact le_rfl

/-- With `rst` low and the buffer not full of collected bytes, the step is neither of the two that write the count (R19). -/
theorem step_ovfCount_of_room {s t : State} (rst : rstNow s = false) (room : collected s < s.cfg.cap)
    (h : step s = .next t) : t.ovfCount = s.ovfCount := by
  cases step_cases h with
  | reset _ high _ => exact absurd (rst.symm.trans high) nofun
  | discard _ _ _ st _ full _ =>
    rw [collected_of_ne_ss (by rw [st]; nofun), full] at room
    exact absurd room (lt_irrefl _)
  | waitSs _ _ _ _ ht | waitSe _ _ _ _ ht | emit _ _ _ _ ht | ssMiss _ _ _ _ _ _ ht | ssHit _ _ _ _ _ _ _ _ ht
  | ssOpen _ _ _ _ _ _ _ _ ht | seMiss _ _ _ _ _ _ _ _ ht | seHit _ _ _ _ _ _ _ _ _ ht
  | seClose _ _ _ _ _ _ _ _ ht | trByte _ _ _ _ _ _ _ _ ht | trLast _ _ _ _ _ _ _ _ ht => exact ht ▸ rfl

/-- The overflow count is `n`, and the buffer has room for `k` more bytes. -/
structure RoomFor (n : BitVec 32) (k : Nat) (s : State) : Prop where
  count : s.ovfCount = n
  room : collected s + k ≤ s.cfg.cap

section
variable {n : BitVec 32} {k : Nat} {s t : State}

/-- A step uses up room for the byte it is offered at most. -/
theorem RoomFor.step (inv : RoomFor n (k + 1) s) (rst : rstNow s = false) (h : step s = .next t) :
    RoomFor n (k + 1 - (offered s).toList.length) t := by
  obtain ⟨count, room⟩ := inv
  have grown := step_collected_le h
  have cap : t.cfg = s.cfg := parametersAreConstant.2 s t h
  have few : (offered s).toList.length ≤ 1 := by cases offered s <;> simp
  refine ⟨(step_ovfCount_of_room rst (by omega) h).trans count, ?_⟩
  rw [cap]
  omega

theorem RoomFor.byteStep {b : Byte} (inv : RoomFor n (k + 1) s) (h : byteStep s b = .next t) : RoomFor n k t :=
  RoomFor.step (s := offerByte s b) ⟨inv.count, inv.room⟩ rfl h

theorem RoomFor.emitStep (inv : RoomFor n (k + 1) s) (h : emitStep s = .next t) : RoomFor n (k + 1) t :=
  RoomFor.step (s := offerNone s) ⟨inv.count, inv.room⟩ rfl h

/-- A run over bytes there is room for keeps the count, whether or not frames are completed and emitted on the way. -/
theorem RoomFor.runHold {bytes : List Byte} (inv : RoomFor n bytes.length s) (h : runHold s bytes = .next t) :
    RoomFor n 0 t := by
  induction bytes generalizing s with
  | nil => exact next_eq_iff.1 h ▸ inv
  | cons b bytes ih =>
    by_cases re : s.st = .re
    · rw [runHold_cons_of_re re] at h
      obtain ⟨e, he, h⟩ := andThen_eq_next.1 h
      obtain ⟨u, hu, h⟩ := andThen_eq_next.1 h
      exact ih ((inv.emitStep he).byteStep hu) h
    · rw [runHold_cons_of_ne re] at h
      obtain ⟨u, hu, h⟩ := andThen_eq_next.1 h
      exact ih (inv.byteStep hu) h

end

/-- Settles O36: after a clear nothing is collected, so that there is room for CAP bytes. -/
theorem overflowsAreFarApart : Obligations.OverflowsAreFarApart := by
  intro s t bytes _ st sidx short h
  have empty : collected s = 0 := by rw [collected_of_ss st, sidx]; rfl
  have start : RoomFor s.ovfCount bytes.length s := ⟨rfl, by rwa [empty, Nat.zero_add]⟩
  exact (start.runHold h).count

/-! ### Priority and labels -/

/-- A RESET step takes no byte (R120). -/
theorem take_of_rst {s : State} (rst : rstNow s = true) : take s = false := by
  rw [take, selected_of_rst rst]
  rfl

/-- Settles O20: the row follows from the scan state, and a RESET in the place of a would-be Overflow leaves the byte on offer. -/
theorem priorityOfEvents : Obligations.PriorityOfEvents := by
  refine fun s => ⟨selected_of_rst, selected_emit, fun rst st offer full => ?_, fun rst => ?_⟩
  · obtain ⟨b, byte⟩ := av_iff.1 offer
    exact selected_se_of_full ⟨rst, st⟩ byte full
  · have goes := step_of_exec (selected_of_rst rst) (exec_reset s)
    refine ⟨_, goes, rfl, fun b byte => ?_⟩
    rw [step_src_of_offered goes byte, take_of_rst rst]
    rfl

/-- Settles O44: each label is the one its row of R117 gives. -/
theorem eventLabels : Obligations.EventLabels :=
  fun _ => ⟨rfl, rfl, rfl, rfl, rfl, rfl, rfl, rfl, rfl, rfl, rfl, rfl, rfl, rfl⟩

end Sys2Proof.Machine
end

section
/-! PROOFS of the family 70_reset_and_hazards.md. RESET leaves the reset state (R120, R121); a field signature at the end of the payload
is the last match in range, with the end signature behind it (R93, R135); and a step without a byte waits or emits a completed frame,
which is emitted before the next byte or at the end of the run in any case (R127). -/

namespace Sys2Proof.Machine

/-! ### Reset -/

/-- Settles O13: the cleared block with both readings unset and nothing counted is the reset state. -/
theorem resetLeavesResetState : Obligations.ResetLeavesResetState := by
  refine fun s => ⟨exec_reset s, fun rst => ?_⟩
  have op := selected_of_rst rst
  exact ⟨op, take_of_rst rst, by rw [ovfEvent, op]; rfl⟩

theorem signed64_unsetReading : signed64 unsetReading = -20000 := by decide

/-- R27: the unset sentinel reads as -2. -/
theorem readingOf_unsetReading : readingOf unsetReading = -2 := by
  rw [readingOf, signed64_unsetReading]
  norm_num

/-- Settles O14. -/
theorem resetStateValues : Obligations.ResetStateValues := by
  intro c
  obtain ⟨ready, incomplete, quiet⟩ := derivedFlags.2 c
  exact ⟨_, rfl, rfl, rfl, rfl, rfl, rfl, rfl, rfl, Memory.read_nil, rfl, rfl, signed64_unsetReading,
    signed64_unsetReading, readingOf_unsetReading, readingOf_unsetReading, rfl, ready, incomplete, quiet⟩

/-! ### A field signature at the end of the payload -/

/-- A match with just its eight bytes of value left in the frame is the last one in range (R93, R97). -/
theorem scanField_of_match_at_end {m : Memory} {sig : List Byte} {n len : Nat} (old : Word) (length : sig.length = n)
    (fits : n + 8 ≤ len) (found : matchAt m sig (len - (n + 8)) = true) :
    scanField m sig len old = memRead8 m (len - 8) := by
  subst length
  rw [scanField_of_last_match old (by omega) found fun p _ _ => by omega]
  congr 1
  omega

/-- The last eight bytes of a completed frame are the end signature and the three trailer bytes (V6 of R21). -/
theorem ReInv.memRead8_end {s : State} (re : ReInv s) :
    memRead8 s.buf (s.wptr - 8) = 0x1B#8 ++ 0x1B#8 ++ 0x1B#8 ++ 0x1B#8 ++ 0x1A#8 ++
      s.buf.read (s.wptr - 3) ++ s.buf.read (s.wptr - 2) ++ s.buf.read (s.wptr - 1) := by
  obtain ⟨n, hn⟩ : ∃ n, s.wptr = n + 8 := ⟨s.wptr - 8, by have := re.cursor_low; omega⟩
  have stored : [s.buf.read n, s.buf.read (n + 1), s.buf.read (n + 2), s.buf.read (n + 3), s.buf.read (n + 4)] =
      endSig := by
    have h := re.end_stored
    rwa [hn] at h
  simp only [endSig, List.cons.injEq] at stored
  obtain ⟨h0, h1, h2, h3, h4, -⟩ := stored
  rw [hn, Nat.add_sub_cancel, memRead8, h0, h1, h2, h3, h4]
  rfl

/-- Settles O53: the step is EMIT, and the value behind the signature is the last eight bytes of the frame. -/
theorem signatureAtPayloadEndReadsFurniture : Obligations.SignatureAtPayloadEndReadsFurniture := by
  intro s t inv st rst h
  obtain ⟨length1, length2⟩ := fsig_lengths inv.cfg_ok
  have emit := step_of_exec (selected_emit rst st) (exec_emit inv.cursor)
  obtain rfl := next_eq_iff.1 (emit.symm.trans h)
  rw [← (inv.re st).memRead8_end]
  exact ⟨scanField_of_match_at_end s.q1 length1, scanField_of_match_at_end s.q2 length2⟩

/-! ### Steps with more on offer -/

/-- The state with `rst` low and the source offering the entries of a list in turn. -/
def withSource (s : State) (l : List (Option Byte)) : State := { s with rstIn := [], src := l }

theorem BlockInv.withSource {s : State} (inv : BlockInv s) (l : List (Option Byte)) : BlockInv (withSource s l) :=
  inv.withInputs [] l

/-- What the source offers later plays no part in a step that takes a byte. -/
theorem step_withSource_byte {s u : State} {b : Byte} (scanning : s.st ≠ .re) (h : byteStep s b = .next u)
    (l : List (Option Byte)) : step (withSource s (some b :: l)) = .next (withSource u l) := by
  have same : ∀ {i v}, selected (offerByte s b) = i → exec i (withSource s (some b :: l)) = .next v →
      step (withSource s (some b :: l)) = .next (elapse (withSource s (some b :: l)) v) :=
    fun op hv => step_of_exec op hv
  cases step_cases h with
  | reset _ rst _ => exact absurd rst nofun
  | waitSs _ _ _ none _ | waitSe _ _ _ none _ => exact absurd none nofun
  | emit _ _ st _ _ => exact absurd st scanning
  | ssMiss _ op _ _ _ _ ht => rw [ht]; exact same op (exec_ssMiss rfl)
  | ssHit _ op _ _ byte _ _ room ht => cases byte; rw [ht]; exact same op (exec_ssHit rfl room)
  | ssOpen _ op _ _ byte _ _ room ht => cases byte; rw [ht]; exact same op (exec_ssOpen rfl room)
  | discard _ op _ _ _ _ ht => rw [ht]; exact same op (exec_ovfDiscard rfl)
  | seMiss _ op _ _ byte room _ _ ht => cases byte; rw [ht]; exact same op (exec_seMiss rfl room)
  | seHit _ op _ _ byte room _ _ _ ht => cases byte; rw [ht]; exact same op (exec_seHit rfl room)
  | seClose _ op _ _ byte room _ _ ht => cases byte; rw [ht]; exact same op (exec_seClose rfl room)
  | trByte _ op _ _ byte room _ _ ht => cases byte; rw [ht]; exact same op (exec_trByte rfl room)
  | trLast _ op _ _ byte room _ _ ht => cases byte; rw [ht]; exact same op (exec_trLast rfl room)

/-- Outside ReadyToEmit a step without a byte waits (R66, R70). -/
theorem step_withSource_idle {s : State} (inv : BlockInv s) (scanning : s.st ≠ .re) (l : List (Option Byte)) :
    step (withSource s (none :: l)) = .next (withSource s l) := by
  cases st : s.st with
  | ss => exact step_of_exec (s := withSource s (none :: l)) (selected_waitSs rfl st rfl) (exec_waitSs _)
  | se => exact step_of_exec (s := withSource s (none :: l)) (selected_waitSe rfl st rfl) (exec_waitSe _)
  | re => exact absurd st scanning
  | reserved => exact absurd st inv.st_legal

/-- The block after the EMIT of a completed frame (R90), with nothing on offer. -/
def emitted (s : State) : State :=
  withSource (clear { s with
    q1 := (extract s.cfg s.buf s.wptr s.q1 s.q2).1
    q2 := (extract s.cfg s.buf s.wptr s.q1 s.q2).2 }) []

theorem emitted_scanning (s : State) : (emitted s).st ≠ .re := nofun

theorem emitStep_eq_emitted {s : State} (inv : BlockInv s) (st : s.st = .re) : emitStep s = .next (emitted s) :=
  emitStep_eq st inv.cursor

theorem BlockInv.emitted {s : State} (inv : BlockInv s) : BlockInv (emitted s) :=
  blockInv_of_cleared inv.cfg_ok rfl

/-- EMIT takes nothing from the source (R90); if nothing is offered in its step, that step without a byte is over. -/
theorem step_withSource_emit {s : State} (inv : BlockInv s) (st : s.st = .re) (l : List (Option Byte)) :
    step (withSource s l) = .next (withSource (emitted s) (if l.head? = some none then l.tail else l)) :=
  step_of_exec (s := withSource s l) (selected_emit rfl st) (exec_emit inv.cursor)

/-! ### Runs step by step -/

theorem run_nil_of_scanning {s : State} (scanning : s.st ≠ .re) : run s [] = .next s := if_neg scanning

theorem run_cons_of_scanning {s : State} (scanning : s.st ≠ .re) (b : Byte) (bytes : List Byte) :
    run s (b :: bytes) = andThen (byteStep s b) fun u => run u bytes := by
  rw [run, runHold_cons_of_ne scanning]
  cases byteStep s b <;> rfl

/-- A completed frame is emitted whether a byte follows or not. -/
theorem run_of_re {s : State} (inv : BlockInv s) (st : s.st = .re) (bytes : List Byte) :
    run s bytes = run (emitted s) bytes := by
  have emit := emitStep_eq_emitted inv st
  cases bytes with
  | nil => exact (if_pos st).trans emit
  | cons b bytes =>
    rw [run, run, runHold_cons_of_re st, emit, runHold_cons_of_ne (emitted_scanning s)]
    rfl

/-- Some number of steps of the machine leads from one state to the other. -/
def Reaches (s t : State) : Prop := ∃ k, Host.Core.run Sys2Proof.core k s = .next t

theorem Reaches.refl (s : State) : Reaches s s := ⟨0, rfl⟩

theorem Reaches.head {s u t : State} (h : step s = .next u) (rest : Reaches u t) : Reaches s t := by
  obtain ⟨k, hk⟩ := rest
  have first : Sys2Proof.core.step s = .next u := h
  exact ⟨k + 1, by simp only [Host.Core.run, first]; exact hk⟩

/-- By induction on the source: its entry `none` is a step that waits or emits, and its entry `some b` is the byte step of the run, behind
an EMIT step if a frame is complete. -/
theorem reaches_of_run {s t : State} {stream : List (Option Byte)} (inv : BlockInv s)
    (h : run s (stream.filterMap id) = .next t) : Reaches (withSource s stream) (withSource t []) := by
  induction stream generalizing s with
  | nil =>
    by_cases st : s.st = .re
    · rw [run_of_re inv st] at h
      obtain rfl := next_eq_iff.1 ((run_nil_of_scanning (emitted_scanning s)).symm.trans h)
      exact .head (step_withSource_emit inv st []) (.refl _)
    · obtain rfl := next_eq_iff.1 ((run_nil_of_scanning st).symm.trans h)
      exact .refl _
  | cons o stream ih =>
    cases o with
    | none =>
      by_cases st : s.st = .re
      · rw [run_of_re inv st] at h
        exact .head (step_withSource_emit inv st _) (ih inv.emitted h)
      · exact .head (step_withSource_idle inv st stream) (ih inv h)
    | some b =>
      have scan : ∀ {e : State}, BlockInv e → e.st ≠ .re → run e (b :: stream.filterMap id) = .next t →
          Reaches (withSource e (some b :: stream)) (withSource t []) := by
        intro e inv scanning h
        rw [run_cons_of_scanning scanning] at h
        obtain ⟨u, hu, h⟩ := andThen_eq_next.1 h
        have kept : BlockInv u := everyStepKeepsInvariants _ u (inv.withSource [some b]) hu
        exact .head (step_withSource_byte scanning hu stream) (ih kept h)
      by_cases st : s.st = .re
      · rw [run_of_re inv st] at h
        exact .head (step_withSource_emit inv st _) (scan inv.emitted (emitted_scanning s) h)
      · exact scan inv st h

/-- Settles O56. -/
theorem idleStepsDoNotMatter : Obligations.IdleStepsDoNotMatter :=
  fun _ _ _ inv h => reaches_of_run inv h

end Sys2Proof.Machine
end

section
/-! PROOFS of the family other: the decoder against the encoder (R47, R48; log 16), and what the operations that store nothing and the
operations that clear the buffer leave as it was. -/

namespace Sys2Proof.Machine

/-! ### Decoding what is encoded -/

/-- Bits outside a row's mask do not change what the row sees (R48). -/
theorem encode_or_freeBits_and_rowMask (i : Instr) (freeBits : BitVec 9) :
    (encode i ||| (freeBits &&& ~~~rowMask i)) &&& rowMask i = rowMatch i := by
  have match_in_mask : encode i &&& rowMask i = rowMatch i := by cases i <;> rfl
  have free_outside : (freeBits &&& ~~~rowMask i) &&& rowMask i = 0 := by
    rw [BitVec.and_assoc, BitVec.and_comm (~~~rowMask i), BitVec.and_not_self]
    exact BitVec.and_zero
  rw [BitVec.and_or_distrib_right, match_in_mask, free_outside]
  exact BitVec.or_zero

/-- The word of a selector decodes as the selector (R47). -/
theorem decodeWord_toNat (sel : BitVec 9) : decodeWord sel.toNat = .ok (decodeSel sel) := by
  rw [decodeWord, BitVec.ofNat_toNat, BitVec.setWidth_eq]
  exact if_pos (decide_eq_true sel.isLt)

theorem decodeWord_of_ge {w : Nat} (h : 512 ≤ w) : decodeWord w = .error (.notASelector w) :=
  if_neg (by simpa [selWordOk] using h)

/-- Settles O18: a selector of a row decodes to the row, since rows are disjoint (R48) and a row does not see its free bits. -/
theorem decodeInvertsEncode : Obligations.DecodeInvertsEncode := by
  refine ⟨fun i freeBits => ?_, fun w h => decodeWord_of_ge h⟩
  have row := decodeSel_eq_iff.2 (encode_or_freeBits_and_rowMask i freeBits)
  exact ⟨row, by rw [decodeWord_toNat, row]⟩

/-- Settles O19: each word is below 512, and the first row of R48 that it matches is the one named. -/
theorem tableWordsDecode : Obligations.TableWordsDecode := by
  unfold Obligations.TableWordsDecode
  decide

/-! ### What the operations outside the store leave as it was -/

/-- Settles O37: the WAIT operations end in the state they began in; SS.MISS takes the byte and sets the start counter. -/
theorem frameOfOperationsThatStoreNothing : Obligations.FrameOfOperationsThatStoreNothing := by
  rintro i s t (rfl | rfl | rfl) h
  · obtain rfl := exec_waitSs_next.1 h
    simp
  · obtain rfl := exec_waitSe_next.1 h
    simp
  · obtain ⟨b, -, rfl⟩ := exec_ssMiss_next.1 h
    simp

/-- Settles O40: each of the three is the cleared state with some registers of its own, and an address that is not listed reads 00 (log 9). -/
theorem frameOfClearingOperations : Obligations.FrameOfClearingOperations := by
  refine fun s t => ⟨fun h => ?_, fun h => ?_, fun h => ?_⟩
  · obtain ⟨-, rfl⟩ := exec_emit_next.1 h
    exact ⟨Memory.read_nil, rfl, rfl, rfl, rfl⟩
  · obtain ⟨b, -, rfl⟩ := exec_ovfDiscard_next.1 h
    exact ⟨Memory.read_nil, rfl, rfl, rfl, rfl⟩
  · obtain rfl := exec_reset_next.1 h
    exact ⟨Memory.read_nil, rfl, rfl, rfl⟩

/-! ### An append with no room -/

/-- Settles O57: the choice of log 15, with a byte on offer or without. -/
theorem fullAppendIsTheOverflowEvent : Obligations.FullAppendIsTheOverflowEvent :=
  fun _ _ appends full => exec_append_eq_ovfDiscard_of_full appends full

end Sys2Proof.Machine
end
